-- ==== Sys2Proof/Word.lean ====
section
/-! DEFINITION. Word.lean: the widths of the machine's values (00_scope.md R4, R7, R11). Every value is unsigned. -/

namespace Sys2Proof

/-- A byte: a register V0-VF, a timer, a memory cell, a key flag, the immediate `kk` (R4, R81). -/
abbrev Byte := BitVec 8

/-- A 16-bit value: `I`, `PC`, a stack cell, an instruction word (R4, R80). -/
abbrev Word := BitVec 16

/-- The 12-bit address field `nnn` of an instruction word (R81). -/
abbrev Addr12 := BitVec 12

/-- The 4-bit field `n` of an instruction word: a sprite's height (R81). -/
abbrev Nibble := BitVec 4

/-- A register number 0-15, the fields `x` and `y` (R83). -/
abbrev Reg := Fin 16

/-- `VF`, the register the flag-writing instructions use (R31). -/
abbrev vf : Reg := 15

/-- `V0`, the offset register of `BNNN` (R30, R127). -/
abbrev v0 : Reg := 0

end Sys2Proof
end

