-- ==== Sys2Proof/Config.lean ====
section
/-! DEFINITION. Config.lean: what is fixed for this hardware (00_scope.md R4) and the free inputs of a step
(40_step.md R109). The bytes of the FONT parameter stand in Machine/Font.lean. -/

namespace Sys2Proof

/-- `MEM_SIZE`: 4096 bytes, addresses 0x000-0xFFF (R4). -/
abbrev Config.memSize : Nat := 4096

/-- `PROG_BASE`: where Load puts the program image and where `PC` starts (R4). -/
abbrev Config.progBase : Nat := 0x200

/-- `MAX_IMAGE`: 4096 - 512 bytes (R4). -/
abbrev Config.maxImage : Nat := 3584

/-- `STACK_DEPTH`: 16 cells (R4). -/
abbrev Config.stackDepth : Nat := 16

/-- `FB_W`: 64 pixels in a row (R4). -/
abbrev Config.fbWidth : Nat := 64

/-- `FB_H`: 32 rows (R4). -/
abbrev Config.fbHeight : Nat := 32

/-- `GLYPH_BYTES`: 5 bytes for each of the 16 glyphs (R4). -/
abbrev Config.glyphBytes : Nat := 5

/-- `HAS_ANNN`, the parameter of 92_eei_decisions.md D4 with its default: `ANNN` is an instruction.
PRESUMED (log entry 8), unsafe if the repository lacks it. -/
def Config.hasAnnn : Bool := true

/-- `draw.rnd`, the random byte of `CXKK` (R109, R152), as a free value: the `k`-th instruction that reads a draw gets
`Config.drawRnd k`, about which nothing is known. DESIGN CHOICE (log entry 6), safe for one step. -/
opaque Config.drawRnd : Nat → Byte

/-- `draw.anyX`, the value left in `VX` when a flag-writing ALU instruction names `VF` as an operand (R109, R140), as a
free value. DESIGN CHOICE (log entry 6), safe for one step. -/
opaque Config.drawAnyX : Nat → Byte

/-- `draw.anyF`, the value left in `VF` when a flag-writing ALU instruction names `VF` as an operand (R109, R140), as a
free value. DESIGN CHOICE (log entry 6), safe for one step. -/
opaque Config.drawAnyF : Nat → Byte

end Sys2Proof
end

