-- ==== Sys2Proof/Syntax.lean ====
section
/-! DEFINITION. Syntax.lean: the 34 instructions of 30_encoding.md R88, one constructor for each row of
spec/opcode_table.json, in its order, with the operand fields of the row's format (R82, R83). -/

namespace Sys2Proof

/-- An instruction. The comment of each constructor gives its pattern, its syntax (R94) and its rule. -/
inductive Instr where
  /-- 00E0 CLS (R170) -/
  | cls
  /-- 00EE RET (R120) -/
  | ret
  /-- 1NNN JP nnn (R121) -/
  | jp (nnn : Addr12)
  /-- 2NNN CALL nnn (R122) -/
  | call (nnn : Addr12)
  /-- 3XKK SE Vx, kk (R123) -/
  | seImm (x : Reg) (kk : Byte)
  /-- 4XKK SNE Vx, kk (R124) -/
  | sneImm (x : Reg) (kk : Byte)
  /-- 5XY0 SE Vx, Vy (R125) -/
  | seReg (x y : Reg)
  /-- 6XKK LD Vx, kk (R141) -/
  | ldImm (x : Reg) (kk : Byte)
  /-- 7XKK ADD Vx, kk (R142) -/
  | addImm (x : Reg) (kk : Byte)
  /-- 8XY0 LD Vx, Vy (R143) -/
  | ldReg (x y : Reg)
  /-- 8XY1 OR Vx, Vy (R144) -/
  | orReg (x y : Reg)
  /-- 8XY2 AND Vx, Vy (R145) -/
  | andReg (x y : Reg)
  /-- 8XY3 XOR Vx, Vy (R146) -/
  | xorReg (x y : Reg)
  /-- 8XY4 ADD Vx, Vy (R147) -/
  | addReg (x y : Reg)
  /-- 8XY5 SUB Vx, Vy (R148) -/
  | subReg (x y : Reg)
  /-- 8XY6 SHR Vx, Vy (R149); `y` is decoded and ignored (R91) -/
  | shr (x y : Reg)
  /-- 8XY7 SUBN Vx, Vy (R150) -/
  | subnReg (x y : Reg)
  /-- 8XYE SHL Vx, Vy (R151); `y` is decoded and ignored (R91) -/
  | shl (x y : Reg)
  /-- 9XY0 SNE Vx, Vy (R126) -/
  | sneReg (x y : Reg)
  /-- ANNN LD I, nnn (R211) -/
  | ldI (nnn : Addr12)
  /-- BNNN JP V0, nnn (R127) -/
  | jpV0 (nnn : Addr12)
  /-- CXKK RND Vx, kk (R152) -/
  | rnd (x : Reg) (kk : Byte)
  /-- DXYN DRW Vx, Vy, n (R171) -/
  | drw (x y : Reg) (n : Nibble)
  /-- EX9E SKP Vx (R190) -/
  | skp (x : Reg)
  /-- EXA1 SKNP Vx (R191) -/
  | sknp (x : Reg)
  /-- FX07 LD Vx, DT (R192) -/
  | ldVxDt (x : Reg)
  /-- FX0A LD Vx, K (R193) -/
  | ldVxKey (x : Reg)
  /-- FX15 LD DT, Vx (R194) -/
  | ldDtVx (x : Reg)
  /-- FX18 LD ST, Vx (R195) -/
  | ldStVx (x : Reg)
  /-- FX1E ADD I, Vx (R212) -/
  | addIVx (x : Reg)
  /-- FX29 LD F, Vx (R213) -/
  | ldFVx (x : Reg)
  /-- FX33 LD B, Vx (R214) -/
  | ldBVx (x : Reg)
  /-- FX55 LD [I], Vx (R215) -/
  | dump (x : Reg)
  /-- FX65 LD Vx, [I] (R216) -/
  | load (x : Reg)
  deriving DecidableEq, Repr

end Sys2Proof
end

