-- ==== Sys2Proof/WellFormed.lean ====
section
/-! DEFINITION. WellFormed.lean: the checks an instruction must pass. The operand types of Syntax.lean already bound
every field (30_encoding.md R81, R83); what is left is whether the instruction exists on this hardware. -/

namespace Sys2Proof

/-- Whether an instruction exists, given the parameter `HAS_ANNN` (92_eei_decisions.md D4): without it, `ANNN` does not. -/
def Instr.wellFormedWith (hasAnnn : Bool) : Instr → Bool
  | .ldI _ => hasAnnn
  | .cls | .ret | .jp _ | .call _ | .seImm _ _ | .sneImm _ _ | .seReg _ _ | .ldImm _ _ | .addImm _ _ | .ldReg _ _
  | .orReg _ _ | .andReg _ _ | .xorReg _ _ | .addReg _ _ | .subReg _ _ | .shr _ _ | .subnReg _ _ | .shl _ _
  | .sneReg _ _ | .jpV0 _ | .rnd _ _ | .drw _ _ _ | .skp _ | .sknp _ | .ldVxDt _ | .ldVxKey _ | .ldDtVx _
  | .ldStVx _ | .addIVx _ | .ldFVx _ | .ldBVx _ | .dump _ | .load _ => true

/-- Whether an instruction exists on this hardware. -/
def Instr.wellFormed (i : Instr) : Bool := i.wellFormedWith Config.hasAnnn

end Sys2Proof
end

