-- ==== Sys2Proof/Decode.lean ====
section
/-! DEFINITION. Decode.lean: the decoder (30_encoding.md R80-R92), the encoder of the same words, the opcode table of
R88, and the assembler's spelling of an instruction (R94). PRESUMED (log entry 7): all bit patterns but those of 7XKK,
8XY4, 8XY5 and FX29 are the standard table's, which the spec takes from general knowledge. -/

namespace Sys2Proof

/-! ## Fields of the instruction word (R81, R11) -/

/-- `op = w[15:12]`. -/
def fieldOp (w : Word) : BitVec 4 := w.extractLsb' 12 4

/-- `x = w[11:8]`. -/
def fieldX (w : Word) : Reg := (w.extractLsb' 8 4).toFin

/-- `y = w[7:4]`. -/
def fieldY (w : Word) : Reg := (w.extractLsb' 4 4).toFin

/-- `n = w[3:0]`. -/
def fieldN (w : Word) : Nibble := w.extractLsb' 0 4

/-- `kk = w[7:0]`. -/
def fieldKk (w : Word) : Byte := w.extractLsb' 0 8

/-- `nnn = w[11:0]`. -/
def fieldNnn (w : Word) : Addr12 := w.extractLsb' 0 12

/-- A word that holds a field with its lowest bit at bit `lo`, and 0 elsewhere (R6, R81). -/
def placeField {k : Nat} (lo : Nat) (f : BitVec k) : Word := f.setWidth 16 <<< lo

/-- The instruction word of two bytes, big-endian: the first byte is `w[15:8]` (R61, R101). -/
def wordOfBytes (hi lo : Byte) : Word := placeField 8 hi ||| placeField 0 lo

/-- The byte `w[15:8]`, which lies at the lower address (R61). -/
def highByte (w : Word) : Byte := w.extractLsb' 8 8

/-- The byte `w[7:0]`, which lies at the higher address (R61). -/
def lowByte (w : Word) : Byte := w.extractLsb' 0 8

/-! ## Decode (R92, R103) -/

/-- What decoding answers (R103): an instruction, or the word that no pattern matches. -/
inductive Decoded where
  | insn (i : Instr)
  | unknown (w : Word)
  deriving DecidableEq, Repr

/-- Group 0 (R85): only the two exact words 0x00E0 and 0x00EE. -/
def decodeGroup0 (w : Word) : Decoded :=
  if w = 0x00E0#16 then .insn .cls
  else if w = 0x00EE#16 then .insn .ret
  else .unknown w

/-- Group 8 (R86): the sub-opcode is `n`. -/
def decodeGroup8 (w : Word) : Decoded :=
  match fieldN w with
  | 0x0#4 => .insn (.ldReg (fieldX w) (fieldY w))
  | 0x1#4 => .insn (.orReg (fieldX w) (fieldY w))
  | 0x2#4 => .insn (.andReg (fieldX w) (fieldY w))
  | 0x3#4 => .insn (.xorReg (fieldX w) (fieldY w))
  | 0x4#4 => .insn (.addReg (fieldX w) (fieldY w))
  | 0x5#4 => .insn (.subReg (fieldX w) (fieldY w))
  | 0x6#4 => .insn (.shr (fieldX w) (fieldY w))
  | 0x7#4 => .insn (.subnReg (fieldX w) (fieldY w))
  | 0xE#4 => .insn (.shl (fieldX w) (fieldY w))
  | _ => .unknown w

/-- Group E (R87): the sub-opcode is `kk`. -/
def decodeGroupE (w : Word) : Decoded :=
  match fieldKk w with
  | 0x9E#8 => .insn (.skp (fieldX w))
  | 0xA1#8 => .insn (.sknp (fieldX w))
  | _ => .unknown w

/-- Group F (R87): the sub-opcode is `kk`. -/
def decodeGroupF (w : Word) : Decoded :=
  match fieldKk w with
  | 0x07#8 => .insn (.ldVxDt (fieldX w))
  | 0x0A#8 => .insn (.ldVxKey (fieldX w))
  | 0x15#8 => .insn (.ldDtVx (fieldX w))
  | 0x18#8 => .insn (.ldStVx (fieldX w))
  | 0x1E#8 => .insn (.addIVx (fieldX w))
  | 0x29#8 => .insn (.ldFVx (fieldX w))
  | 0x33#8 => .insn (.ldBVx (fieldX w))
  | 0x55#8 => .insn (.dump (fieldX w))
  | 0x65#8 => .insn (.load (fieldX w))
  | _ => .unknown w

/-- Decoding under a value of the parameter `HAS_ANNN` (D4): the map by opcode group of R84. Every fixed bit must match
(R89, D5, log entry 9). -/
def decodeWith (hasAnnn : Bool) (w : Word) : Decoded :=
  match fieldOp w with
  | 0x0#4 => decodeGroup0 w
  | 0x1#4 => .insn (.jp (fieldNnn w))
  | 0x2#4 => .insn (.call (fieldNnn w))
  | 0x3#4 => .insn (.seImm (fieldX w) (fieldKk w))
  | 0x4#4 => .insn (.sneImm (fieldX w) (fieldKk w))
  | 0x5#4 => if fieldN w = 0x0#4 then .insn (.seReg (fieldX w) (fieldY w)) else .unknown w
  | 0x6#4 => .insn (.ldImm (fieldX w) (fieldKk w))
  | 0x7#4 => .insn (.addImm (fieldX w) (fieldKk w))
  | 0x8#4 => decodeGroup8 w
  | 0x9#4 => if fieldN w = 0x0#4 then .insn (.sneReg (fieldX w) (fieldY w)) else .unknown w
  | 0xA#4 => if hasAnnn then .insn (.ldI (fieldNnn w)) else .unknown w
  | 0xB#4 => .insn (.jpV0 (fieldNnn w))
  | 0xC#4 => .insn (.rnd (fieldX w) (fieldKk w))
  | 0xD#4 => .insn (.drw (fieldX w) (fieldY w) (fieldN w))
  | 0xE#4 => decodeGroupE w
  | _ => decodeGroupF w

/-- Decode of this hardware: a total function of the word alone (R92). -/
def decode (w : Word) : Decoded := decodeWith Config.hasAnnn w

/-- Decode of a byte sequence: the first two bytes are the instruction (R80), the rest is returned; fewer than two bytes
are no instruction. -/
def decodeBytes : List Byte → Option (Decoded × List Byte)
  | hi :: lo :: rest => some (decode (wordOfBytes hi lo), rest)
  | _ => none

/-- The instruction of a table word, bits numbered as spec/opcode_table.json numbers them: `w[15:0]` is the one word, laid
out big-endian (R61) and given to the decoder; bits above `nbits` are 0. -/
def decodeTableWord (nbits w : Nat) : Option Instr :=
  let word := BitVec.ofNat 16 (w % 2 ^ nbits)
  match decodeBytes [highByte word, lowByte word] with
  | some (.insn i, _) => some i
  | _ => none

/-! ## Encode (R82, R88) -/

/-- Format NNN: `oooo nnnn nnnn nnnn`. -/
def formatNnn (op : BitVec 4) (nnn : Addr12) : Word := placeField 12 op ||| placeField 0 nnn

/-- Format XKK: `oooo xxxx kkkk kkkk`. -/
def formatXkk (op : BitVec 4) (x : Reg) (kk : Byte) : Word :=
  placeField 12 op ||| placeField 8 (BitVec.ofFin x : BitVec 4) ||| placeField 0 kk

/-- Formats XY and XYN: `oooo xxxx yyyy ssss`. -/
def formatXyn (op : BitVec 4) (x y : Reg) (n : Nibble) : Word :=
  placeField 12 op ||| placeField 8 (BitVec.ofFin x : BitVec 4) ||| placeField 4 (BitVec.ofFin y : BitVec 4) |||
    placeField 0 n

/-- The one word of an instruction (R88). -/
def encode : Instr → Word
  | .cls => 0x00E0#16
  | .ret => 0x00EE#16
  | .jp nnn => formatNnn 0x1#4 nnn
  | .call nnn => formatNnn 0x2#4 nnn
  | .seImm x kk => formatXkk 0x3#4 x kk
  | .sneImm x kk => formatXkk 0x4#4 x kk
  | .seReg x y => formatXyn 0x5#4 x y 0x0#4
  | .ldImm x kk => formatXkk 0x6#4 x kk
  | .addImm x kk => formatXkk 0x7#4 x kk
  | .ldReg x y => formatXyn 0x8#4 x y 0x0#4
  | .orReg x y => formatXyn 0x8#4 x y 0x1#4
  | .andReg x y => formatXyn 0x8#4 x y 0x2#4
  | .xorReg x y => formatXyn 0x8#4 x y 0x3#4
  | .addReg x y => formatXyn 0x8#4 x y 0x4#4
  | .subReg x y => formatXyn 0x8#4 x y 0x5#4
  | .shr x y => formatXyn 0x8#4 x y 0x6#4
  | .subnReg x y => formatXyn 0x8#4 x y 0x7#4
  | .shl x y => formatXyn 0x8#4 x y 0xE#4
  | .sneReg x y => formatXyn 0x9#4 x y 0x0#4
  | .ldI nnn => formatNnn 0xA#4 nnn
  | .jpV0 nnn => formatNnn 0xB#4 nnn
  | .rnd x kk => formatXkk 0xC#4 x kk
  | .drw x y n => formatXyn 0xD#4 x y n
  | .skp x => formatXkk 0xE#4 x 0x9E#8
  | .sknp x => formatXkk 0xE#4 x 0xA1#8
  | .ldVxDt x => formatXkk 0xF#4 x 0x07#8
  | .ldVxKey x => formatXkk 0xF#4 x 0x0A#8
  | .ldDtVx x => formatXkk 0xF#4 x 0x15#8
  | .ldStVx x => formatXkk 0xF#4 x 0x18#8
  | .addIVx x => formatXkk 0xF#4 x 0x1E#8
  | .ldFVx x => formatXkk 0xF#4 x 0x29#8
  | .ldBVx x => formatXkk 0xF#4 x 0x33#8
  | .dump x => formatXkk 0xF#4 x 0x55#8
  | .load x => formatXkk 0xF#4 x 0x65#8

/-- The two bytes of an instruction, in memory order (R61, R80). -/
def encodeBytes (i : Instr) : List Byte := [highByte (encode i), lowByte (encode i)]

/-! ## The opcode table (R88) -/

/-- A row of the opcode table: a word is the row's instruction when `(w & mask) = value` (R88). -/
structure OpcodeRow where
  mask : Word
  value : Word
  mnemonic : String
  deriving DecidableEq, Repr

/-- Whether a word matches a row (R88). -/
def OpcodeRow.matches (r : OpcodeRow) (w : Word) : Bool := w &&& r.mask == r.value

/-- The 34 rows of R88, in its order, with the mnemonics of spec/opcode_table.json. -/
def opcodeTable : List OpcodeRow :=
  [⟨0xFFFF, 0x00E0, "CLS"⟩, ⟨0xFFFF, 0x00EE, "RET"⟩, ⟨0xF000, 0x1000, "JP_nnn"⟩, ⟨0xF000, 0x2000, "CALL_nnn"⟩,
   ⟨0xF000, 0x3000, "SE_Vx__kk"⟩, ⟨0xF000, 0x4000, "SNE_Vx__kk"⟩, ⟨0xF00F, 0x5000, "SE_Vx__Vy"⟩,
   ⟨0xF000, 0x6000, "LD_Vx__kk"⟩, ⟨0xF000, 0x7000, "ADD_Vx__kk"⟩, ⟨0xF00F, 0x8000, "LD_Vx__Vy"⟩] ++
  [⟨0xF00F, 0x8001, "OR_Vx__Vy"⟩, ⟨0xF00F, 0x8002, "AND_Vx__Vy"⟩, ⟨0xF00F, 0x8003, "XOR_Vx__Vy"⟩,
   ⟨0xF00F, 0x8004, "ADD_Vx__Vy"⟩, ⟨0xF00F, 0x8005, "SUB_Vx__Vy"⟩, ⟨0xF00F, 0x8006, "SHR_Vx__Vy"⟩,
   ⟨0xF00F, 0x8007, "SUBN_Vx__Vy"⟩, ⟨0xF00F, 0x800E, "SHL_Vx__Vy"⟩, ⟨0xF00F, 0x9000, "SNE_Vx__Vy"⟩,
   ⟨0xF000, 0xA000, "LD_I__nnn"⟩, ⟨0xF000, 0xB000, "JP_V0__nnn"⟩, ⟨0xF000, 0xC000, "RND_Vx__kk"⟩] ++
  [⟨0xF000, 0xD000, "DRW_Vx__Vy__n"⟩, ⟨0xF0FF, 0xE09E, "SKP_Vx"⟩, ⟨0xF0FF, 0xE0A1, "SKNP_Vx"⟩,
   ⟨0xF0FF, 0xF007, "LD_Vx__DT"⟩, ⟨0xF0FF, 0xF00A, "LD_Vx__K"⟩, ⟨0xF0FF, 0xF015, "LD_DT__Vx"⟩,
   ⟨0xF0FF, 0xF018, "LD_ST__Vx"⟩, ⟨0xF0FF, 0xF01E, "ADD_I__Vx"⟩, ⟨0xF0FF, 0xF029, "LD_F__Vx"⟩,
   ⟨0xF0FF, 0xF033, "LD_B__Vx"⟩, ⟨0xF0FF, 0xF055, "LD__I___Vx"⟩, ⟨0xF0FF, 0xF065, "LD_Vx___I"⟩]

/-- The number of an instruction's row in R88, counted from 0. -/
def Instr.rowIndex : Instr → Nat
  | .cls => 0 | .ret => 1 | .jp _ => 2 | .call _ => 3 | .seImm _ _ => 4 | .sneImm _ _ => 5 | .seReg _ _ => 6
  | .ldImm _ _ => 7 | .addImm _ _ => 8 | .ldReg _ _ => 9 | .orReg _ _ => 10 | .andReg _ _ => 11 | .xorReg _ _ => 12
  | .addReg _ _ => 13 | .subReg _ _ => 14 | .shr _ _ => 15 | .subnReg _ _ => 16 | .shl _ _ => 17 | .sneReg _ _ => 18
  | .ldI _ => 19 | .jpV0 _ => 20 | .rnd _ _ => 21 | .drw _ _ _ => 22 | .skp _ => 23 | .sknp _ => 24 | .ldVxDt _ => 25
  | .ldVxKey _ => 26 | .ldDtVx _ => 27 | .ldStVx _ => 28 | .addIVx _ => 29 | .ldFVx _ => 30 | .ldBVx _ => 31
  | .dump _ => 32 | .load _ => 33

/-! ## Assembler syntax (R94): the conventional spelling, PRESUMED (log entry 31); no meaning depends on it -/

/-- A hexadecimal digit. -/
def hexDigit (n : Fin 16) : Char :=
  ['0', '1', '2', '3', '4', '5', '6', '7', '8', '9', 'A', 'B', 'C', 'D', 'E', 'F'].getD n.val '0'

/-- A literal with the prefix 0x and `digits` hexadecimal digits. -/
def hexLiteral (digits value : Nat) : String :=
  "0x" ++ String.ofList ((List.range digits).reverse.map fun k => hexDigit (Fin.ofNat 16 (value / 16 ^ k)))

/-- `V0`-`V9` and `VA`-`VF`. -/
def regName (x : Reg) : String := String.ofList ['V', hexDigit x]

/-- `<op> Vx, Vy`. -/
def asmXy (op : String) (x y : Reg) : String := op ++ " " ++ regName x ++ ", " ++ regName y

/-- `<op> Vx, kk`. -/
def asmXkk (op : String) (x : Reg) (kk : Byte) : String := op ++ " " ++ regName x ++ ", " ++ hexLiteral 2 kk.toNat

/-- The spelling of an instruction; the destination is first (R94). -/
def Instr.asm : Instr → String
  | .cls => "CLS"
  | .ret => "RET"
  | .jp nnn => "JP " ++ hexLiteral 3 nnn.toNat
  | .call nnn => "CALL " ++ hexLiteral 3 nnn.toNat
  | .seImm x kk => asmXkk "SE" x kk
  | .sneImm x kk => asmXkk "SNE" x kk
  | .seReg x y => asmXy "SE" x y
  | .ldImm x kk => asmXkk "LD" x kk
  | .addImm x kk => asmXkk "ADD" x kk
  | .ldReg x y => asmXy "LD" x y
  | .orReg x y => asmXy "OR" x y
  | .andReg x y => asmXy "AND" x y
  | .xorReg x y => asmXy "XOR" x y
  | .addReg x y => asmXy "ADD" x y
  | .subReg x y => asmXy "SUB" x y
  | .shr x y => asmXy "SHR" x y
  | .subnReg x y => asmXy "SUBN" x y
  | .shl x y => asmXy "SHL" x y
  | .sneReg x y => asmXy "SNE" x y
  | .ldI nnn => "LD I, " ++ hexLiteral 3 nnn.toNat
  | .jpV0 nnn => "JP V0, " ++ hexLiteral 3 nnn.toNat
  | .rnd x kk => asmXkk "RND" x kk
  | .drw x y n => asmXy "DRW" x y ++ ", " ++ hexLiteral 1 n.toNat
  | .skp x => "SKP " ++ regName x
  | .sknp x => "SKNP " ++ regName x
  | .ldVxDt x => "LD " ++ regName x ++ ", DT"
  | .ldVxKey x => "LD " ++ regName x ++ ", K"
  | .ldDtVx x => "LD DT, " ++ regName x
  | .ldStVx x => "LD ST, " ++ regName x
  | .addIVx x => "ADD I, " ++ regName x
  | .ldFVx x => "LD F, " ++ regName x
  | .ldBVx x => "LD B, " ++ regName x
  | .dump x => "LD [I], " ++ regName x
  | .load x => "LD " ++ regName x ++ ", [I]"

/-- A line of an assembler program: an instruction, or a raw data word `DW 0xHHHH` (R94). -/
inductive AsmLine where
  | insn (i : Instr)
  | dw (w : Word)
  deriving DecidableEq, Repr

/-- The spelling of a line. -/
def AsmLine.asm : AsmLine → String
  | .insn i => i.asm
  | .dw w => "DW " ++ hexLiteral 4 w.toNat

/-- The word of a line: one encoding a line (R94). -/
def AsmLine.word : AsmLine → Word
  | .insn i => encode i
  | .dw w => w

/-- The image bytes of a program, each word big-endian (R61). -/
def assemble (lines : List AsmLine) : List Byte := lines.flatMap fun l => [highByte l.word, lowByte l.word]

end Sys2Proof
end

