-- ==== Sys2Proof/Machine/Font.lean ====
section
/-! DEFINITION. Machine/Font.lean: the FONT parameter (00_scope.md R4, 92_eei_decisions.md D7) with the default bytes of
93_implementation_defined.md part 3. PRESUMED (log entry 1), unsafe: the source gives the font's size and place only. -/

namespace Sys2Proof.Machine

/-- Glyphs 0-7, five bytes each. -/
def fontLow : List Byte :=
  [0xF0, 0x90, 0x90, 0x90, 0xF0, 0x20, 0x60, 0x20, 0x20, 0x70, 0xF0, 0x10, 0xF0, 0x80, 0xF0, 0xF0, 0x10, 0xF0, 0x10, 0xF0,
   0x90, 0x90, 0xF0, 0x10, 0x10, 0xF0, 0x80, 0xF0, 0x10, 0xF0, 0xF0, 0x80, 0xF0, 0x90, 0xF0, 0xF0, 0x10, 0x20, 0x40, 0x40]

/-- Glyphs 8-F, five bytes each. -/
def fontHigh : List Byte :=
  [0xF0, 0x90, 0xF0, 0x90, 0xF0, 0xF0, 0x90, 0xF0, 0x10, 0xF0, 0xF0, 0x90, 0xF0, 0x90, 0x90, 0xE0, 0x90, 0xE0, 0x90, 0xE0,
   0xF0, 0x80, 0x80, 0x80, 0xF0, 0xE0, 0x90, 0x90, 0x90, 0xE0, 0xF0, 0x80, 0xF0, 0x80, 0xF0, 0xF0, 0x80, 0xF0, 0x80, 0x80]

/-- FONT: 80 bytes, glyph `d` at `5*d` (R66). -/
def font : List Byte := fontLow ++ fontHigh

/-- The address of glyph `d`: `d * 5`, the digit not masked to 4 bits (R213). -/
def glyphAddr (d : Byte) : Word := d.zeroExtend 16 * 5

end Sys2Proof.Machine
end

