-- ==== Sys2Proof/Machine/State.lean ====
section
/-! DEFINITION. Machine/State.lean: the Machine State as plain data (10_state.md R30-R48), the reasons a step stops
(60_exceptions.md R230-R236), and the state after Reset (R48, 70_reset_and_hazards.md R260). -/

namespace Sys2Proof.Machine

/-- Memory: the cells that differ from what an unlisted address reads as (`Memory.unlisted` of Machine/Ops.lean), by
strictly rising address. -/
abbrev Memory := List Host.Cell

/-- The fault of a step, with the record of R236: the info of R230's table, `pc0`, and the word when the fetch
succeeded. Every fault is the spec's own fatal condition; stopping is safe wherever the spec chose to stop on a point
its source leaves open. -/
inductive Fault where
  /-- Raised by decode in every step (R103, R232), for a word that matches no row. Safe. -/
  | unknownInstruction (w pc0 : Word)
  /-- Raised by `2NNN` with `SP = 16` (R122, R231). Safe. -/
  | stackOverflow (pc0 w : Word)
  /-- Raised by `00EE` with `SP = 0` (R120, R231). Safe. -/
  | stackUnderflow (pc0 w : Word)
  /-- Raised by fetch (then `w` is `none`), `DXYN`, `FX33`, `FX55` and `FX65` for an access at 4096 or more (R65, R233).
  Safe (log entry 10). -/
  | memoryOutOfBounds (addr : Nat) (pc0 : Word) (w : Option Word)
  /-- Raised by `EX9E` and `EXA1` with `VX > 15` (R190, R191, R234). Safe (log entry 11). -/
  | keyIndexOutOfRange (vx : Byte) (pc0 w : Word)
  /-- Raised by `FX1E` when `I + VX > 0xFFFF` (R212, R235). Safe (log entry 12). -/
  | indexOverflow (sum : Nat) (pc0 w : Word)
  deriving DecidableEq, Repr

/-- A step or a host action that has no move. No meaning of an instruction answers with one. -/
inductive Refusal where
  /-- An instruction without a meaning; no arm of exec uses it now. Safe. -/
  | notModelled (mnemonic : String)
  /-- Step with `STATUS = Faulted` (R100, R240). Safe. -/
  | halted
  /-- Step with `PHASE = Reset`: no program has been loaded (R100, R263). Safe. -/
  | noProgram
  /-- Step with `PHASE = LoadFailed` (R261, R263). Safe. -/
  | loadFailed
  /-- Load in a phase other than `Reset` (R263). Safe. -/
  | loadNotAdmitted
  /-- A host action other than Reset after the run has ended (R265). Safe (log entry 23). -/
  | runEnded
  /-- Reset while the run has not ended: there is no reset input during a run (R260). Safe (log entry 23). -/
  | runLive
  /-- RenderRead while `REDRAW` is false, or RedrawClear before this frame was read (R247). Safe (log entry 33). -/
  | noFrame
  deriving DecidableEq, Repr

/-- `STATUS` (R42). -/
inductive Status where
  | running
  | faulted (record : Fault)
  deriving DecidableEq, Repr

/-- Why a Load failed (R261). -/
inductive LoadFailure where
  | emptyImage
  | imageTooLarge
  deriving DecidableEq, Repr

/-- `PHASE`: how far the launch has got (R42, R263). -/
inductive Phase where
  | reset
  | loaded
  | loadFailed (reason : LoadFailure)
  | stepping
  deriving DecidableEq, Repr

/-- The Machine State (R2, R43). -/
structure State where
  /-- `V0`-`VF` (R30, R31). -/
  v : Vector Byte 16
  /-- `I`, 16 bits, never masked (R32). -/
  i : Word
  /-- `PC` (R33). -/
  pc : Word
  /-- `STACK[0]`-`STACK[15]` (R34). -/
  stack : Vector Word 16
  /-- `SP`, the next free slot, 0 to 16 (R35; log entry 27). -/
  sp : Fin 17
  /-- `DT` (R36). -/
  dt : Byte
  /-- `ST` (R37). -/
  st : Byte
  /-- `MEM` (R38). -/
  mem : Memory
  /-- `FB`: bit `k` is the cell `FB[k]`, so a cell is 0 or 1 and nothing else (R39; log entry 26). -/
  fb : BitVec 2048
  /-- `KEY[0]`-`KEY[15]` (R40). -/
  key : Vector Byte 16
  /-- `REDRAW` (R41). -/
  redraw : Bool
  /-- `STATUS` (R42). -/
  status : Status
  /-- `PHASE` (R42). -/
  phase : Phase
  /-- The model's own field: the number of draws taken so far (R109; log entry 6). -/
  draws : Nat
  deriving DecidableEq, Repr

/-- The state after Reset (R48, R260). Memory lists nothing: the font and the zeros are what an unlisted address reads
as. `REDRAW` is the spec's decision D9 (log entry 3); `draws` is the model's (log entry 6). -/
def State.reset : State where
  v := Vector.replicate 16 0
  i := 0
  pc := 0x200
  stack := Vector.replicate 16 0
  sp := 0
  dt := 0
  st := 0
  mem := []
  fb := 0
  key := Vector.replicate 16 0
  redraw := false
  status := .running
  phase := .reset
  draws := 0

end Sys2Proof.Machine
end

