-- ==== Sys2Proof/Machine/Ops.lean ====
section
/-! DEFINITION. Machine/Ops.lean: the named operations over memory, stack, PC, timers and status that fetch, the step and
the meanings share (20_memory.md, 40_step.md R101-R106, 41_control_flow.md R120, R122, 60_exceptions.md R236). -/

namespace Sys2Proof.Machine

/-! ## Memory (R9, R38, R65, R66) -/

/-- What an address that is not listed reads as: the reset contents of R66, FONT at 0x000-0x04F and 0 elsewhere (log
entries 1 and 2). -/
def Memory.unlisted (a : Nat) : Byte := font.getD a 0

/-- The listed byte of an address, if there is one. -/
def Memory.lookup : Memory → Nat → Option Byte
  | [], _ => none
  | (k, b) :: m, a => if k = a then some b else Memory.lookup m a

/-- The byte at an address. -/
def Memory.read (m : Memory) (a : Nat) : Byte := (m.lookup a).getD (Memory.unlisted a)

/-- Memory without any entry for an address. -/
def Memory.erase : Memory → Nat → Memory
  | [], _ => []
  | (k, b) :: m, a => if k = a then Memory.erase m a else (k, b) :: Memory.erase m a

/-- Memory with an entry put before the first greater address. -/
def Memory.insert : Memory → Nat → Byte → Memory
  | [], a, b => [(a, b)]
  | (k, c) :: m, a, b => if a < k then (a, b) :: (k, c) :: m else (k, c) :: Memory.insert m a b

/-- Memory after storing a byte: the entry is replaced, and dropped where the byte is what an unlisted address reads as. -/
def Memory.write (m : Memory) (a : Nat) (b : Byte) : Memory :=
  if b = Memory.unlisted a then m.erase a else (m.erase a).insert a b

/-- Addresses from `lo` on rise strictly, lie below 4096, and no entry equals what an unlisted address reads as. -/
def Memory.wfFrom : Nat → Memory → Bool
  | _, [] => true
  | lo, (k, b) :: m => decide (lo ≤ k ∧ k < Config.memSize ∧ b ≠ Memory.unlisted k) && Memory.wfFrom (k + 1) m

/-- The canonical form of memory. -/
def Memory.wf (m : Memory) : Bool := Memory.wfFrom 0 m

/-- `MemRead(addr, 1)`: the byte at an exact natural address, none (MemoryOutOfBounds) at 4096 or more (R9, R65). -/
def memRead (m : Memory) (a : Nat) : Option Byte := if a < Config.memSize then some (m.read a) else none

/-- `MemWrite(addr, 1, v)`: memory after the store, none (MemoryOutOfBounds) at 4096 or more (R9, R65). -/
def memWrite (m : Memory) (a : Nat) (b : Byte) : Option Memory :=
  if a < Config.memSize then some (m.write a b) else none

/-- `count` bytes from address `a` on, in ascending order; an error is the first address out of bounds (R65, R237). -/
def readBlock (m : Memory) (a : Nat) : Nat → Except Nat (List Byte)
  | 0 => .ok []
  | count + 1 =>
    match memRead m a with
    | none => .error a
    | some b => (readBlock m (a + 1) count).map (b :: ·)

/-- Memory after storing bytes from address `a` on, in ascending order; an error is the first address out of bounds (R65,
R237). -/
def writeBlock (m : Memory) (a : Nat) : List Byte → Except Nat Memory
  | [] => .ok m
  | b :: bs =>
    match memWrite m a b with
    | none => .error a
    | some m' => writeBlock m' (a + 1) bs

/-- The byte of a state's memory, `MemRead(addr, 1)`. -/
def State.memRead (s : State) (a : Nat) : Option Byte := Sys2Proof.Machine.memRead s.mem a

/-! ## Fetch, PC and the delay timer (R101, R102, R105) -/

/-- Fetch of a word at `pc0`: the byte at `pc0` is `w[15:8]`, the byte at `pc0 + 1` (exact, no wrap) is `w[7:0]`; an error
is the first address out of bounds (R101). An odd `pc0` is fetched like an even one (R63, log entry 13). -/
def fetch (m : Memory) (pc0 : Word) : Except Nat Word :=
  match memRead m pc0.toNat with
  | none => .error pc0.toNat
  | some hi =>
    match memRead m (pc0.toNat + 1) with
    | none => .error (pc0.toNat + 1)
    | some lo => .ok (wordOfBytes hi lo)

/-- The state the instruction executes in: `PHASE` is `Stepping` (R101) and `PC` is `pc0 + 2` (R102). -/
def State.beginExecute (s : State) : State := { s with pc := s.pc + 2, phase := .stepping }

/-- The address of the running instruction, seen from its execution: `PC - 2` (R102). -/
def State.pc0 (s : State) : Word := s.pc - 2

/-- The end of a step that did not fault: `DT` decays by 1 unless it is 0 (R105). `ST` does not (R248). -/
def State.decayDelay (s : State) : State := if s.dt ≠ 0 then { s with dt := s.dt - 1 } else s

/-- The state with another `PC`. -/
def State.jumpTo (s : State) (target : Word) : State := { s with pc := target }

/-- A skip: `PC + 2` when the condition holds (R123-R126, R128). -/
def State.skipIf (s : State) (c : Bool) : State := if c then { s with pc := s.pc + 2 } else s

/-! ## The call stack (R34, R35) -/

/-- The push of `2NNN`: none (StackOverflow) when `SP = 16`; else `STACK[SP] <- w`, `SP + 1` (R122). -/
def State.push (s : State) (w : Word) : Option State :=
  if h : s.sp.val < 16 then some { s with stack := s.stack.set s.sp.val w, sp := ⟨s.sp.val + 1, by omega⟩ } else none

/-- The pop of `00EE`: none (StackUnderflow) when `SP = 0`; else `SP - 1` and `STACK[SP]`; the cell keeps its value (R120,
log entry 20). -/
def State.pop (s : State) : Option (Word × State) :=
  if h : 0 < s.sp.val then some (s.stack[s.sp.val - 1], { s with sp := ⟨s.sp.val - 1, by omega⟩ }) else none

/-! ## What a fault does (R236, R240) -/

/-- A fault that stops the running instruction: the step answers it with its record (R100, R236). There is no handler, no
saved register, no mode change (R236) and no return (R240). -/
def raise (record : Fault) : Host.Outcome State Fault Refusal := .fault record

/-- The machine after a step that faulted: `STATUS` is `Faulted(record)` for good (R236, R240) and `PHASE` is `Stepping`
(R101). Nothing else of that state is defined; the model leaves it as it was before the step (log entry 4). -/
def State.takeFault (s : State) (record : Fault) : State := { s with status := .faulted record, phase := .stepping }

end Sys2Proof.Machine
end

