-- ==== Sys2Proof/Machine/Operands.lean ====
section
/-! DEFINITION. Machine/Operands.lean: register operands (00_scope.md R8), the register block of FX55 and FX65
(45_index_memory.md R210, R215, R216), the key operand (10_state.md R40) and the draws (40_step.md R109). -/

namespace Sys2Proof.Machine

/-- `V[x]` (R8). -/
def State.getV (s : State) (x : Reg) : Byte := s.v[x.val]

/-- `V[x] <- b` (R8). -/
def State.setV (s : State) (x : Reg) (b : Byte) : State := { s with v := s.v.set x.val b }

/-- The block `V0..VX`, inclusive, as `x + 1` bytes (R215). -/
def State.regBlock (s : State) (x : Reg) : List Byte := s.v.toList.take (x.val + 1)

/-- The register file after `V[k] <- bytes[k]` for the first registers; the others keep their value (R216). -/
def State.setRegBlock (s : State) (bytes : List Byte) : State :=
  { s with v := Vector.ofFn fun r : Fin 16 => bytes.getD r.val s.v[r.val] }

/-- The three decimal digits of a byte: hundreds, tens, ones (R214). -/
def bcdDigits (b : Byte) : List Byte := [b / 100, b / 10 % 10, b % 10]

/-- Whether key `k` is pressed: its flag is not 0 (R40, log entry 22). -/
def State.keyPressed (s : State) (k : Fin 16) : Bool := s.key[k.val] != 0

/-- The key index in `V[x]`: none (KeyIndexOutOfRange) when `VX > 15` (R190, R191, R234). -/
def State.keyOperand (s : State) (x : Reg) : Option (Fin 16) :=
  if h : (s.getV x).toNat < 16 then some ⟨(s.getV x).toNat, h⟩ else none

/-- The key indices, ascending. -/
def keyIndices : List (Fin 16) := [0, 1, 2, 3, 4, 5, 6, 7, 8, 9, 10, 11, 12, 13, 14, 15]

/-- The scan of `FX0A`: ascending, each pressed key overwrites what was found before (R193). -/
def State.scanKeys (s : State) : Option (Fin 16) :=
  keyIndices.foldl (fun found k => if s.keyPressed k then some k else found) none

/-- `draw.rnd` of this step (R109). -/
def State.drawRnd (s : State) : Byte := Config.drawRnd s.draws

/-- `draw.anyX` of this step (R109). -/
def State.drawAnyX (s : State) : Byte := Config.drawAnyX s.draws

/-- `draw.anyF` of this step (R109). -/
def State.drawAnyF (s : State) : Byte := Config.drawAnyF s.draws

/-- The state after an instruction that read a draw: the next one gets fresh draws (log entry 6). -/
def State.nextDraw (s : State) : State := { s with draws := s.draws + 1 }

end Sys2Proof.Machine
end

