-- ==== Sys2Proof/Machine/Flags.lean ====
section
/-! DEFINITION. Machine/Flags.lean: every flag the machine writes to VF (10_state.md R31; 42_alu.md R147-R151), and the
rule for VF named as an operand (R140). -/

namespace Sys2Proof.Machine

/-- A flag as `VF` holds it: 1 or 0. -/
def flagByte (c : Bool) : Byte := if c then 1 else 0

/-- The flag of `8XY4`: 1 when there is NO overflow, 0 when the exact sum is above 255 (R147). -/
def addFlag (a b : Byte) : Byte := flagByte (!decide (a.toNat + b.toNat > 255))

/-- The flag of a subtract `a - b`: 1 when there is no borrow, equal operands included (R148, R150; log entry 16). -/
def noBorrowFlag (a b : Byte) : Byte := flagByte (decide (a.toNat ≥ b.toNat))

/-- The flag of `8XY6`: bit 0 before the shift (R149). -/
def shrFlag (a : Byte) : Byte := flagByte (a.getLsbD 0)

/-- The flag of `8XYE`: bit 7 before the shift (R151). -/
def shlFlag (a : Byte) : Byte := flagByte (a.getLsbD 7)

/-- `VF` named as an operand of a flag-writing ALU instruction (R140): `V[x] <- draw.anyX` unless `x = 0xF`, then
`VF <- draw.anyF`; nothing else changes (log entry 6). -/
def State.vfOperand (s : State) (x : Reg) : State :=
  let s' := if x ≠ vf then s.setV x s.drawAnyX else s
  (s'.setV vf s.drawAnyF).nextDraw

/-- The end of a flag-writing ALU instruction: `V[x] <- result`, then `VF <- flag`; R140 where VF is an operand. -/
def State.writeFlagged (s : State) (x : Reg) (vfNamed : Bool) (result flag : Byte) : State :=
  if vfNamed then s.vfOperand x else (s.setV x result).setV vf flag

/-- Whether one of two register operands is `VF` (R140). -/
def namesVf (x y : Reg) : Bool := x == vf || y == vf

end Sys2Proof.Machine
end

