-- ==== Sys2Proof/Machine/Alu.lean ====
section
/-! DEFINITION. Machine/Alu.lean: the meanings of 42_alu.md, R140-R153. Every result is 8 bits, modulo 256. -/

namespace Sys2Proof.Machine

/-- 6XKK LD Vx, kk (R141). -/
def execLdImm (x : Reg) (kk : Byte) (s : State) : Host.Outcome State Fault Refusal := .next (s.setV x kk)

/-- 7XKK ADD Vx, kk (R142): wraps, and touches no flag. -/
def execAddImm (x : Reg) (kk : Byte) (s : State) : Host.Outcome State Fault Refusal := .next (s.setV x (s.getV x + kk))

/-- 8XY0 LD Vx, Vy (R143). -/
def execLdReg (x y : Reg) (s : State) : Host.Outcome State Fault Refusal := .next (s.setV x (s.getV y))

/-- 8XY1 OR Vx, Vy (R144): `VF` is not cleared. -/
def execOrReg (x y : Reg) (s : State) : Host.Outcome State Fault Refusal := .next (s.setV x (s.getV x ||| s.getV y))

/-- 8XY2 AND Vx, Vy (R145). -/
def execAndReg (x y : Reg) (s : State) : Host.Outcome State Fault Refusal := .next (s.setV x (s.getV x &&& s.getV y))

/-- 8XY3 XOR Vx, Vy (R146). -/
def execXorReg (x y : Reg) (s : State) : Host.Outcome State Fault Refusal := .next (s.setV x (s.getV x ^^^ s.getV y))

/-- 8XY4 ADD Vx, Vy (R147): `VF = 1` when there is NO overflow. -/
def execAddReg (x y : Reg) (s : State) : Host.Outcome State Fault Refusal :=
  .next (s.writeFlagged x (namesVf x y) (s.getV x + s.getV y) (addFlag (s.getV x) (s.getV y)))

/-- 8XY5 SUB Vx, Vy (R148): `VX - VY`. -/
def execSubReg (x y : Reg) (s : State) : Host.Outcome State Fault Refusal :=
  .next (s.writeFlagged x (namesVf x y) (s.getV x - s.getV y) (noBorrowFlag (s.getV x) (s.getV y)))

/-- 8XY6 SHR Vx, Vy (R149): `y` is ignored (R91). -/
def execShr (x _y : Reg) (s : State) : Host.Outcome State Fault Refusal :=
  .next (s.writeFlagged x (x == vf) (s.getV x >>> 1) (shrFlag (s.getV x)))

/-- 8XY7 SUBN Vx, Vy (R150): `VY - VX`. -/
def execSubnReg (x y : Reg) (s : State) : Host.Outcome State Fault Refusal :=
  .next (s.writeFlagged x (namesVf x y) (s.getV y - s.getV x) (noBorrowFlag (s.getV y) (s.getV x)))

/-- 8XYE SHL Vx, Vy (R151): `y` is ignored (R91). -/
def execShl (x _y : Reg) (s : State) : Host.Outcome State Fault Refusal :=
  .next (s.writeFlagged x (x == vf) (s.getV x <<< 1) (shlFlag (s.getV x)))

/-- The result of `CXKK` for a random byte (R152). -/
def rndResult (rnd kk : Byte) : Byte := rnd &&& kk

/-- CXKK RND Vx, kk (R152): the random byte is the free input `draw.rnd` (log entry 6). -/
def execRnd (x : Reg) (kk : Byte) (s : State) : Host.Outcome State Fault Refusal :=
  .next ((s.setV x (rndResult s.drawRnd kk)).nextDraw)

end Sys2Proof.Machine
end

