-- ==== Sys2Proof/Machine/Control.lean ====
section
/-! DEFINITION. Machine/Control.lean: the meanings of 41_control_flow.md, R120-R128. `PC` holds `pc0 + 2` (R102). -/

namespace Sys2Proof.Machine

/-- 00EE RET (R120). -/
def execRet (s : State) : Host.Outcome State Fault Refusal :=
  match s.pop with
  | none => raise (.stackUnderflow s.pc0 (encode .ret))
  | some (target, s') => .next (s'.jumpTo target)

/-- 1NNN JP nnn (R121). -/
def execJp (nnn : Addr12) (s : State) : Host.Outcome State Fault Refusal := .next (s.jumpTo (nnn.zeroExtend 16))

/-- 2NNN CALL nnn (R122): the pushed value is the address after the call. -/
def execCall (nnn : Addr12) (s : State) : Host.Outcome State Fault Refusal :=
  match s.push s.pc with
  | none => raise (.stackOverflow s.pc0 (encode (.call nnn)))
  | some s' => .next (s'.jumpTo (nnn.zeroExtend 16))

/-- 3XKK SE Vx, kk (R123). -/
def execSeImm (x : Reg) (kk : Byte) (s : State) : Host.Outcome State Fault Refusal := .next (s.skipIf (s.getV x == kk))

/-- 4XKK SNE Vx, kk (R124). -/
def execSneImm (x : Reg) (kk : Byte) (s : State) : Host.Outcome State Fault Refusal := .next (s.skipIf (s.getV x != kk))

/-- 5XY0 SE Vx, Vy (R125). -/
def execSeReg (x y : Reg) (s : State) : Host.Outcome State Fault Refusal := .next (s.skipIf (s.getV x == s.getV y))

/-- 9XY0 SNE Vx, Vy (R126). -/
def execSneReg (x y : Reg) (s : State) : Host.Outcome State Fault Refusal := .next (s.skipIf (s.getV x != s.getV y))

/-- BNNN JP V0, nnn (R127): the sum is exact, at most 0x10FE, and not masked to 12 bits (log entry 21). -/
def execJpV0 (nnn : Addr12) (s : State) : Host.Outcome State Fault Refusal :=
  .next (s.jumpTo (nnn.zeroExtend 16 + (s.getV v0).zeroExtend 16))

end Sys2Proof.Machine
end

