-- ==== Sys2Proof/Machine/Display.lean ====
section
/-! DEFINITION. Machine/Display.lean: the framebuffer (10_state.md R39) and the meanings of 43_display.md, R170-R175. -/

namespace Sys2Proof.Machine

/-- The cell `FB[k]` (R39). -/
def fbCell (fb : BitVec 2048) (k : Nat) : Bool := fb.getLsbD k

/-- `FB[k] <- FB[k] ^ 1` (R171). -/
def fbFlip (fb : BitVec 2048) (k : Nat) : BitVec 2048 := fb ^^^ BitVec.twoPow 2048 k

/-- The cell number of pixel `(x, y)`: `y*64 + x` (R39). -/
def pixelIndex (x y : Nat) : Nat := y * 64 + x

/-- The pixel `FB(x, y)` of a state, for `x` below 64 and `y` below 32 (R8, R39). -/
def State.pixel (s : State) (x y : Nat) : Bool := fbCell s.fb (pixelIndex x y)

/-- The cell `FB[k]` as the byte the host reads, 0 or 1 (R39, R74). -/
def State.fbByte (s : State) (k : Nat) : Byte := flagByte (fbCell s.fb k)

/-- Column `c` of a sprite row: column 0 is bit 7 (R172; log entry 18). -/
def spriteBit (row : Byte) (c : Nat) : Bool := row.getLsbD (7 - c)

/-- One column of one row (R171): a set bit flips its pixel and records a collision where the pixel was set; coordinates
are exact naturals, and a pixel outside 64 x 32 is dropped (R173). `acc` is the framebuffer and `hit`. -/
def drawPixel (x0 y0 : Nat) (row : Byte) (acc : BitVec 2048 × Bool) (c : Nat) : BitVec 2048 × Bool :=
  if spriteBit row c ∧ x0 + c < 64 ∧ y0 < 32 then
    (fbFlip acc.1 (pixelIndex (x0 + c) y0), acc.2 || fbCell acc.1 (pixelIndex (x0 + c) y0))
  else acc

/-- The eight columns of a row drawn at height `y0`, left to right (R171, R172). -/
def drawRow (x0 y0 : Nat) (row : Byte) (acc : BitVec 2048 × Bool) : BitVec 2048 × Bool :=
  [0, 1, 2, 3, 4, 5, 6, 7].foldl (drawPixel x0 y0 row) acc

/-- The rows of a sprite, top to bottom, the first at height `y0` (R171). -/
def drawRows (x0 y0 : Nat) : List Byte → BitVec 2048 × Bool → BitVec 2048 × Bool
  | [], acc => acc
  | row :: rows, acc => drawRows x0 (y0 + 1) rows (drawRow x0 y0 row acc)

/-- The state after drawing sprite rows at `(x0, y0)`: `VF` is the collision of the whole sprite, written once at the end,
and `REDRAW` is set whether or not a pixel changed (R171, R174, R175). -/
def State.drawSprite (s : State) (x0 y0 : Nat) (rows : List Byte) : State :=
  let acc := drawRows x0 y0 rows (s.fb, false)
  { s with fb := acc.1, redraw := true }.setV vf (flagByte acc.2)

/-- 00E0 CLS (R170). -/
def execCls (s : State) : Host.Outcome State Fault Refusal := .next { s with fb := 0, redraw := true }

/-- DXYN DRW Vx, Vy, n (R171): `VX`, `VY` and `I` are read once, and every row byte before any pixel changes, clipped rows
included (log entry 17). -/
def execDrw (x y : Reg) (n : Nibble) (s : State) : Host.Outcome State Fault Refusal :=
  match readBlock s.mem s.i.toNat n.toNat with
  | .error a => raise (.memoryOutOfBounds a s.pc0 (some (encode (.drw x y n))))
  | .ok rows => .next (s.drawSprite (s.getV x).toNat (s.getV y).toNat rows)

end Sys2Proof.Machine
end

