-- ==== Sys2Proof/Machine/Index.lean ====
section
/-! DEFINITION. Machine/Index.lean: the meanings of 45_index_memory.md, R210-R216. No access changes `I` (R210, log entry
19). -/

namespace Sys2Proof.Machine

/-- The state with another `I` (R32). -/
def State.setI (s : State) (w : Word) : State := { s with i := w }

/-- The state with another memory. -/
def State.setMem (s : State) (m : Memory) : State := { s with mem := m }

/-- ANNN LD I, nnn (R211). -/
def execLdI (nnn : Addr12) (s : State) : Host.Outcome State Fault Refusal := .next (s.setI (nnn.zeroExtend 16))

/-- FX1E ADD I, Vx (R212): the exact sum; above 0xFFFF it faults; `VF` is not touched. -/
def execAddIVx (x : Reg) (s : State) : Host.Outcome State Fault Refusal :=
  let sum := s.i.toNat + (s.getV x).toNat
  if sum > 0xFFFF then raise (.indexOverflow sum s.pc0 (encode (.addIVx x))) else .next (s.setI (BitVec.ofNat 16 sum))

/-- FX29 LD F, Vx (R213). -/
def execLdFVx (x : Reg) (s : State) : Host.Outcome State Fault Refusal := .next (s.setI (glyphAddr (s.getV x)))

/-- FX33 LD B, Vx (R214). -/
def execLdBVx (x : Reg) (s : State) : Host.Outcome State Fault Refusal :=
  match writeBlock s.mem s.i.toNat (bcdDigits (s.getV x)) with
  | .error a => raise (.memoryOutOfBounds a s.pc0 (some (encode (.ldBVx x))))
  | .ok m => .next (s.setMem m)

/-- FX55 LD [I], Vx (R215). -/
def execDump (x : Reg) (s : State) : Host.Outcome State Fault Refusal :=
  match writeBlock s.mem s.i.toNat (s.regBlock x) with
  | .error a => raise (.memoryOutOfBounds a s.pc0 (some (encode (.dump x))))
  | .ok m => .next (s.setMem m)

/-- FX65 LD Vx, [I] (R216). -/
def execLoad (x : Reg) (s : State) : Host.Outcome State Fault Refusal :=
  match readBlock s.mem s.i.toNat (x.val + 1) with
  | .error a => raise (.memoryOutOfBounds a s.pc0 (some (encode (.load x))))
  | .ok bytes => .next (s.setRegBlock bytes)

end Sys2Proof.Machine
end

