-- ==== Sys2Proof/Machine/Keys.lean ====
section
/-! DEFINITION. Machine/Keys.lean: the meanings of 44_keys_timers.md, R190-R195. The step's decay of DT is not part of
them (40_step.md R105). -/

namespace Sys2Proof.Machine

/-- EX9E SKP Vx (R190). -/
def execSkp (x : Reg) (s : State) : Host.Outcome State Fault Refusal :=
  match s.keyOperand x with
  | none => raise (.keyIndexOutOfRange (s.getV x) s.pc0 (encode (.skp x)))
  | some k => .next (s.skipIf (s.keyPressed k))

/-- EXA1 SKNP Vx (R191). -/
def execSknp (x : Reg) (s : State) : Host.Outcome State Fault Refusal :=
  match s.keyOperand x with
  | none => raise (.keyIndexOutOfRange (s.getV x) s.pc0 (encode (.sknp x)))
  | some k => .next (s.skipIf (!s.keyPressed k))

/-- FX07 LD Vx, DT (R192): `DT` before this step's decay. -/
def execLdVxDt (x : Reg) (s : State) : Host.Outcome State Fault Refusal := .next (s.setV x s.dt)

/-- FX0A LD Vx, K (R193): the highest pressed key; with none, `PC` rolls back by 2 and the word is fetched again. -/
def execLdVxKey (x : Reg) (s : State) : Host.Outcome State Fault Refusal :=
  match s.scanKeys with
  | some k => .next (s.setV x (BitVec.ofNat 8 k.val))
  | none => .next (s.jumpTo (s.pc - 2))

/-- FX15 LD DT, Vx (R194). -/
def execLdDtVx (x : Reg) (s : State) : Host.Outcome State Fault Refusal := .next { s with dt := s.getV x }

/-- FX18 LD ST, Vx (R195). -/
def execLdStVx (x : Reg) (s : State) : Host.Outcome State Fault Refusal := .next { s with st := s.getV x }

end Sys2Proof.Machine
end

