-- ==== Sys2Proof/Machine/Step.lean ====
section
/-! DEFINITION. Machine/Step.lean: the single-step cycle (40_step.md R100-R107) and the word a step is made to run. -/

namespace Sys2Proof.Machine

/-- The end of a step (R105, R106): a next state decays the delay timer; a fault or a refusal is answered as it is. -/
def endStep : Host.Outcome State Fault Refusal → Host.Outcome State Fault Refusal
  | .next t => .next t.decayDelay
  | .fault r => .fault r
  | .refused r => .refused r

/-- Decode and execute a fetched word, then end the step (R103-R106). -/
def runWord (w : Word) (s : State) : Host.Outcome State Fault Refusal :=
  match decode w with
  | .unknown w' => .fault (.unknownInstruction w' s.pc)
  | .insn i => endStep (exec i s.beginExecute)

/-- The cycle of a step that is admitted (R107): fetch, PC advance, decode, execute, delay-timer decay. -/
def cycle (s : State) : Host.Outcome State Fault Refusal :=
  match fetch s.mem s.pc with
  | .error a => .fault (.memoryOutOfBounds a s.pc none)
  | .ok w => runWord w s

/-- The single step (R100): it exists only while `STATUS` is `Running` and a program has been loaded (R263). -/
def step (s : State) : Host.Outcome State Fault Refusal :=
  match s.status with
  | .faulted _ => .refused .halted
  | .running =>
    match s.phase with
    | .reset => .refused .noProgram
    | .loadFailed _ => .refused .loadFailed
    | .loaded => cycle s
    | .stepping => cycle s

/-- A byte stored where it exists; an address of 4096 or more stores nothing. -/
def storeIfMapped (m : Memory) (a : Nat) (b : Byte) : Memory := (memWrite m a b).getD m

/-- The state with one instruction word, numbered as spec/opcode_table.json numbers it, laid out big-endian at `PC` (R61),
and made such that the very next step fetches and runs it: `STATUS` is `Running` and, where no program has been loaded,
`PHASE` is `Loaded`, as after a Load (R262, R263; log entry 5). -/
def State.withFetchWord (s : State) (nbits w : Nat) : State :=
  let word := BitVec.ofNat 16 (w % 2 ^ nbits)
  { s with
    mem := storeIfMapped (storeIfMapped s.mem s.pc.toNat (highByte word)) (s.pc.toNat + 1) (lowByte word)
    status := .running
    phase := match s.phase with
      | .stepping => .stepping
      | .loaded => .loaded
      | .reset => .loaded
      | .loadFailed _ => .loaded }

end Sys2Proof.Machine
end

