-- ==== Sys2Proof/Machine/HostActions.lean ====
section
/-! DEFINITION. Machine/HostActions.lean: what the host does to the CORE between steps (60_exceptions.md R247-R250), Load
(70_reset_and_hazards.md R261-R263) and the life of a run (R265). The host acts only between steps (R69), so each action
is a transition of its own; `step` holds none of them (log entry 23). -/

namespace Sys2Proof.Machine

/-! ## Load (R261-R263) -/

/-- Why an image cannot be loaded, if it cannot (R261). -/
def loadFailure (image : List Byte) : Option LoadFailure :=
  if image.length = 0 then some .emptyImage
  else if image.length > Config.maxImage then some .imageTooLarge
  else none

/-- The copy of Load (R262): byte `k` of the image to `a + k`. -/
def copyImage (m : Memory) (a : Nat) : List Byte → Memory
  | [] => m
  | b :: bs => copyImage (m.write a b) (a + 1) bs

/-- Load of an image: admitted only in `PHASE = Reset` (R263, log entry 25); a failure changes nothing but `PHASE` (R261),
a success copies the image to 0x200 and sets `PHASE` (R262). -/
def State.load (image : List Byte) (s : State) : Host.Outcome State Fault Refusal :=
  if s.phase = .reset then
    match loadFailure image with
    | some reason => .next { s with phase := .loadFailed reason }
    | none => .next { s with mem := copyImage s.mem Config.progBase image, phase := .loaded }
  else .refused .loadNotAdmitted

/-! ## The host's reads and writes (R247) -/

/-- KeyWrite(k, v): the host writes 1 for pressed and 0 for released, no other value (R249, log entry 22). -/
def State.keyWrite (k : Fin 16) (pressed : Bool) (s : State) : State := { s with key := s.key.set k.val (flagByte pressed) }

/-- RenderRead: the frame the renderer reads while `REDRAW` is true (R247, R250). -/
def State.renderRead (s : State) : Option (BitVec 2048) := if s.redraw then some s.fb else none

/-- RedrawClear: `REDRAW <- false` (R247, R250). -/
def State.redrawClear (s : State) : State := { s with redraw := false }

/-- SoundTick: `ST <- ST - 1` if `ST` is not 0 (R248). -/
def State.soundTick (s : State) : State := if s.st ≠ 0 then { s with st := s.st - 1 } else s

/-- SoundRead: `ST`; the tone sounds while it is not 0 (R247, R37). -/
def State.soundRead (s : State) : Byte := s.st

/-! ## A run and its host (R247, R263, R265) -/

/-- The moves of the host, Step among them (R247, D1). -/
inductive HostAction where
  | reset
  | load (image : List Byte)
  | step
  | keyWrite (k : Fin 16) (pressed : Bool)
  | renderRead
  | redrawClear
  | soundTick
  | soundRead
  | terminate
  deriving DecidableEq, Repr

/-- A run: the machine, with the host's own bookkeeping beside it. -/
structure Session where
  machine : State
  /-- Whether the renderer has read the frame now in `FB` (R247; log entry 33). -/
  frameRead : Bool
  /-- Whether the host has ended the run by Terminate (R265). -/
  terminated : Bool
  deriving DecidableEq, Repr

/-- A new run (R260). -/
def Session.start : Session := { machine := State.reset, frameRead := false, terminated := false }

/-- Reset after the end of a run: a new run (R260). The count of draws goes on, so that the new run gets fresh
draws (log entry 6). -/
def Session.reset (r : Session) : Session :=
  { machine := { State.reset with draws := r.machine.draws }, frameRead := false, terminated := false }

/-- Whether a `PHASE` ends the run: a failed Load (R265). -/
def Phase.ended : Phase → Bool
  | .loadFailed _ => true
  | .reset => false
  | .loaded => false
  | .stepping => false

/-- Whether the run has ended: by Terminate, a fault, or a failed Load (R265). -/
def Session.ended (r : Session) : Bool := r.terminated || r.machine.status != .running || r.machine.phase.ended

/-- The session with another machine state, its other fields kept. -/
def Session.withMachine (r : Session) (s : State) : Session := { r with machine := s }

/-- Load in a run. -/
def Session.load (image : List Byte) (r : Session) : Host.Outcome Session Fault Refusal :=
  match r.machine.load image with
  | .next t => .next (r.withMachine t)
  | .fault f => .fault f
  | .refused reason => .refused reason

/-- Step in a run: a fault makes `STATUS` be `Faulted(record)` (R106, R236, R240); a frame counts as read while `FB` keeps
its contents (log entry 33). -/
def Session.step (r : Session) : Host.Outcome Session Fault Refusal :=
  match Sys2Proof.Machine.step r.machine with
  | .next t => .next { r with machine := t, frameRead := r.frameRead && t.fb == r.machine.fb }
  | .fault record => .next (r.withMachine (r.machine.takeFault record))
  | .refused reason => .refused reason

/-- An action while the run has not ended (R247); Reset has no move here, since a run has no reset input (R260).
DESIGN CHOICE (log entry 33): RedrawClear uses up the read, so that it has one move for each RenderRead.
DESIGN CHOICE (log entry 34): SoundTick has a move any number of times between two steps, or none; `driverIteration` keeps
the duty of R248. DESIGN CHOICE (log entry 35): only Step and Load ask for a `PHASE`; the other actions have their move
before Load too. -/
def Session.actLive (r : Session) : HostAction → Host.Outcome Session Fault Refusal
  | .reset => .refused .runLive
  | .load image => r.load image
  | .step => r.step
  | .keyWrite k pressed => .next (r.withMachine (r.machine.keyWrite k pressed))
  | .renderRead => if r.machine.redraw then .next { r with frameRead := true } else .refused .noFrame
  | .redrawClear =>
    if r.frameRead then .next { r with machine := r.machine.redrawClear, frameRead := false } else .refused .noFrame
  | .soundTick => .next (r.withMachine r.machine.soundTick)
  | .soundRead => .next r
  | .terminate => .next { r with terminated := true }

/-- An action after the run has ended: only Reset has a move (R240, R260, R265; log entry 23). -/
def Session.actEnded (r : Session) : HostAction → Host.Outcome Session Fault Refusal
  | .reset => .next r.reset
  | .load _ => .refused .runEnded
  | .step => .refused .runEnded
  | .keyWrite _ _ => .refused .runEnded
  | .renderRead => .refused .runEnded
  | .redrawClear => .refused .runEnded
  | .soundTick => .refused .runEnded
  | .soundRead => .refused .runEnded
  | .terminate => .refused .runEnded

/-- One host action: in a live run every action but Reset may have a move (R247, R260), after its end only Reset has one
(R240, R265; log entry 23). -/
def Session.act (r : Session) (a : HostAction) : Host.Outcome Session Fault Refusal :=
  if r.ended then r.actEnded a else r.actLive a

/-- A sequence of host actions, up to the first that has no move. -/
def Session.run (r : Session) : List HostAction → Host.Outcome Session Fault Refusal
  | [] => .next r
  | a :: rest =>
    match r.act a with
    | .next r' => r'.run rest
    | .fault f => .fault f
    | .refused reason => .refused reason

/-- What the host does after an iteration's step: render while `REDRAW` is true, then the sound tick (R248, D21; log entry
24); nothing when the step ended the run. -/
def Session.afterStep (r : Session) : List HostAction :=
  if r.ended then []
  else if r.machine.redraw then [.renderRead, .redrawClear, .soundTick]
  else [.soundTick]

/-- One iteration of the driver loop: key input, one step, render and audio update (R248). -/
def Session.driverIteration (r : Session) (keys : List (Fin 16 × Bool)) : Host.Outcome Session Fault Refusal :=
  match r.run (keys.map (fun k => .keyWrite k.1 k.2) ++ [.step]) with
  | .next r' => r'.run r'.afterStep
  | .fault f => .fault f
  | .refused reason => .refused reason

end Sys2Proof.Machine
end

