-- ==== Sys2Proof/Safety.lean ====
section
/-! DEFINITION. Safety.lean: the terms in which claims are made: admitted and safe steps, the machine's invariant, and the
parts of the state an instruction leaves alone (10_state.md R47, 40_step.md R104). -/

namespace Sys2Proof.Machine

/-- Whether a step exists: `STATUS = Running` and `PHASE` is `Loaded` or `Stepping` (R100, R263). -/
def State.admitted (s : State) : Prop := s.status = .running ∧ (s.phase = .loaded ∨ s.phase = .stepping)

/-- The step from a state completes: no fault and no refusal. -/
def SafeStep (s : State) : Prop := ∃ t, step s = .next t

/-- `k` steps complete, with no host action between them. -/
def SafeRun (k : Nat) (s : State) : Prop := ∃ t, core.run k s = .next t

/-- What every state of a run satisfies: memory is in canonical form; `PC` is at most 0x10FE (R33, R127); a stack cell
holds 0 or a return address, at most 0x1000 (R120); a key flag is 0 or 1 (R40, R249). -/
def State.Inv (s : State) : Prop :=
  s.mem.wf = true ∧ s.pc.toNat ≤ 0x10FE ∧ (∀ k : Fin 16, s.stack[k.val].toNat ≤ 0x1000) ∧
  (∀ k : Fin 16, s.key[k.val] = 0 ∨ s.key[k.val] = 1)

/-- The parts of the state a frame speaks of. `launch` is `STATUS` and `PHASE` together; `stack` is the cells and `SP`. -/
inductive Part where
  | v | i | pc | stack | dt | st | mem | fb | key | redraw | launch | draws
  deriving DecidableEq, Repr

/-- Everything but the parts named is as before: every register, every byte of memory, every other field. -/
def KeepsBut (parts : List Part) (s t : State) : Prop :=
  (Part.v ∉ parts → ∀ r, t.getV r = s.getV r) ∧
  (Part.i ∉ parts → t.i = s.i) ∧
  (Part.pc ∉ parts → t.pc = s.pc) ∧
  (Part.stack ∉ parts → t.stack = s.stack ∧ t.sp = s.sp) ∧
  (Part.dt ∉ parts → t.dt = s.dt) ∧
  (Part.st ∉ parts → t.st = s.st) ∧
  (Part.mem ∉ parts → ∀ a, t.memRead a = s.memRead a) ∧
  (Part.fb ∉ parts → t.fb = s.fb) ∧
  (Part.key ∉ parts → t.key = s.key) ∧
  (Part.redraw ∉ parts → t.redraw = s.redraw) ∧
  (Part.launch ∉ parts → t.status = s.status ∧ t.phase = s.phase) ∧
  (Part.draws ∉ parts → t.draws = s.draws)

/-- Every register but those named is as before. -/
def KeepsRegsBut (regs : List Reg) (s t : State) : Prop := ∀ r, r ∉ regs → t.getV r = s.getV r

/-- What each instruction's rule writes, by R47's summary and the rules themselves (R104). -/
def writes : Instr → List Part
  | .cls => [.fb, .redraw]
  | .ret => [.pc, .stack]
  | .jp _ => [.pc]
  | .call _ => [.pc, .stack]
  | .seImm _ _ => [.pc]
  | .sneImm _ _ => [.pc]
  | .seReg _ _ => [.pc]
  | .ldImm _ _ => [.v]
  | .addImm _ _ => [.v]
  | .ldReg _ _ => [.v]
  | .orReg _ _ => [.v]
  | .andReg _ _ => [.v]
  | .xorReg _ _ => [.v]
  | .addReg _ _ => [.v, .draws]
  | .subReg _ _ => [.v, .draws]
  | .shr _ _ => [.v, .draws]
  | .subnReg _ _ => [.v, .draws]
  | .shl _ _ => [.v, .draws]
  | .sneReg _ _ => [.pc]
  | .ldI _ => [.i]
  | .jpV0 _ => [.pc]
  | .rnd _ _ => [.v, .draws]
  | .drw _ _ _ => [.v, .fb, .redraw]
  | .skp _ => [.pc]
  | .sknp _ => [.pc]
  | .ldVxDt _ => [.v]
  | .ldVxKey _ => [.v, .pc]
  | .ldDtVx _ => [.dt]
  | .ldStVx _ => [.st]
  | .addIVx _ => [.i]
  | .ldFVx _ => [.i]
  | .ldBVx _ => [.mem]
  | .dump _ => [.mem]
  | .load _ => [.v]

/-- The registers an instruction may write: the one its field `x` names, `VF` where it writes a flag, `V0..VX` for the
register load (R30, R31, R47). -/
def writesRegs : Instr → List Reg
  | .ldImm x _ => [x]
  | .addImm x _ => [x]
  | .ldReg x _ => [x]
  | .orReg x _ => [x]
  | .andReg x _ => [x]
  | .xorReg x _ => [x]
  | .addReg x _ => [x, vf]
  | .subReg x _ => [x, vf]
  | .shr x _ => [x, vf]
  | .subnReg x _ => [x, vf]
  | .shl x _ => [x, vf]
  | .rnd x _ => [x]
  | .drw _ _ _ => [vf]
  | .ldVxDt x => [x]
  | .ldVxKey x => [x]
  | .load x => (List.finRange 16).filter (fun r => r ≤ x)
  | .cls => [] | .ret => [] | .jp _ => [] | .call _ => [] | .seImm _ _ => [] | .sneImm _ _ => [] | .seReg _ _ => []
  | .sneReg _ _ => [] | .ldI _ => [] | .jpV0 _ => [] | .skp _ => [] | .sknp _ => [] | .ldDtVx _ => [] | .ldStVx _ => []
  | .addIVx _ => [] | .ldFVx _ => [] | .ldBVx _ => [] | .dump _ => []

/-- The number of bytes an instruction's rule stores at `I` (R47, R214, R215). -/
def storeCount : Instr → Nat
  | .ldBVx _ => 3
  | .dump x => x.val + 1
  | .cls => 0 | .ret => 0 | .jp _ => 0 | .call _ => 0 | .seImm _ _ => 0 | .sneImm _ _ => 0 | .seReg _ _ => 0
  | .ldImm _ _ => 0 | .addImm _ _ => 0 | .ldReg _ _ => 0 | .orReg _ _ => 0 | .andReg _ _ => 0 | .xorReg _ _ => 0
  | .addReg _ _ => 0 | .subReg _ _ => 0 | .shr _ _ => 0 | .subnReg _ _ => 0 | .shl _ _ => 0 | .sneReg _ _ => 0
  | .ldI _ => 0 | .jpV0 _ => 0 | .rnd _ _ => 0 | .drw _ _ _ => 0 | .skp _ => 0 | .sknp _ => 0 | .ldVxDt _ => 0
  | .ldVxKey _ => 0 | .ldDtVx _ => 0 | .ldStVx _ => 0 | .addIVx _ => 0 | .ldFVx _ => 0 | .load _ => 0

/-- Whether an instruction reads a draw (R109): `CXKK`, and a flag-writing ALU instruction that names `VF` as an operand
(R140). -/
def readsDraw : Instr → Bool
  | .rnd _ _ => true
  | .addReg x y => namesVf x y
  | .subReg x y => namesVf x y
  | .subnReg x y => namesVf x y
  | .shr x _ => x == vf
  | .shl x _ => x == vf
  | .cls => false | .ret => false | .jp _ => false | .call _ => false | .seImm _ _ => false | .sneImm _ _ => false
  | .seReg _ _ => false | .ldImm _ _ => false | .addImm _ _ => false | .ldReg _ _ => false | .orReg _ _ => false
  | .andReg _ _ => false | .xorReg _ _ => false | .sneReg _ _ => false | .ldI _ => false | .jpV0 _ => false
  | .drw _ _ _ => false | .skp _ => false | .sknp _ => false | .ldVxDt _ => false | .ldVxKey _ => false
  | .ldDtVx _ => false | .ldStVx _ => false | .addIVx _ => false | .ldFVx _ => false | .ldBVx _ => false
  | .dump _ => false | .load _ => false

/-- The first address out of bounds of a block at `base` that passes the end of memory (R233). -/
def firstBad (base : Nat) : Nat := if base < Config.memSize then Config.memSize else base

/-- Whether the sprite row byte `row r`, for `r` below `n`, drawn at `(x0, y0)`, has a set bit on pixel `(px, py)` (R171,
R172, R173). -/
def spriteCovers (x0 y0 n : Nat) (row : Nat → Byte) (px py : Nat) : Bool :=
  decide (x0 ≤ px ∧ px < x0 + 8 ∧ y0 ≤ py ∧ py < y0 + n) && spriteBit (row (py - y0)) (px - x0)

end Sys2Proof.Machine
end

