-- ==== Sys2Proof/Certificates/Slice0/Obligations.lean ====
section
/-! DEFINITION. Certificates/Slice0/Obligations.lean: the statements about the CORE, from the numbered rules of spec/. In
a statement about `exec` the state is the one the instruction executes in: its `PC` is already `pc0 + 2` (R12, R102).
`KeepsBut parts s t` says that everything but the parts named is as before, every byte of memory included;
`KeepsRegsBut regs s t` says it of every register but those named. A title or docstring names the decision or the log
entry a statement rests on where the source itself does not settle the point. -/

open Sys2Proof Sys2Proof.Machine

/-! ## Encoding (30_encoding.md). The bit patterns are D3 (log entry 7), `ANNN` is D4 (log entry 8), strict matching is D5
(log entry 9). -/

/-- Decode of the encoding of a well-formed instruction is that instruction, every operand at every value (R88, R92; the
patterns are D3, log entry 7). -/
def Obligations.DecodeEncodeRoundTrip : Prop := ∀ i : Instr, i.wellFormed = true → decode (encode i) = .insn i

/-- Each legal word has one meaning: the encoding of what it decodes to is the word itself, and what it decodes to exists
(R88, R92; the patterns are D3, log entry 7). So the word in a fault record (log entry 28) is the fetched word. -/
def Obligations.EncodeDecodeRoundTrip : Prop :=
  ∀ (w : Word) (i : Instr), decode w = .insn i → encode i = w ∧ i.wellFormed = true

/-- A word decodes to an instruction exactly when it matches that instruction's row of the opcode table, so no word
matches two rows; a word that matches no row is unknown (R88, R89; the patterns are D3, log entry 7). -/
def Obligations.DecodeFollowsOpcodeTable : Prop :=
  ∀ w : Word,
    (∀ i, decode w = .insn i → ∃ row, opcodeTable[i.rowIndex]? = some row ∧ row.matches w = true) ∧
    (∀ (k : Nat) (row : OpcodeRow), opcodeTable[k]? = some row → row.matches w = true →
      ∃ i, decode w = .insn i ∧ i.rowIndex = k) ∧
    ((∀ row ∈ opcodeTable, row.matches w = false) → decode w = .unknown w)

/-- The illegal words are exactly those R89 lists, and decoding names the word (R85-R87, R89; strict matching is D5, log
entry 9; the patterns are D3, log entry 7). -/
def Obligations.IllegalWordsAreExactlyThese : Prop :=
  (∀ w w' : Word, decode w = .unknown w' → w' = w) ∧
  ∀ w : Word, decode w = .unknown w ↔
    (fieldOp w = 0x0#4 ∧ w ≠ 0x00E0#16 ∧ w ≠ 0x00EE#16) ∨
    (fieldOp w = 0x5#4 ∧ fieldN w ≠ 0x0#4) ∨
    (fieldOp w = 0x8#4 ∧ fieldN w ∈ [0x8#4, 0x9#4, 0xA#4, 0xB#4, 0xC#4, 0xD#4, 0xF#4]) ∨
    (fieldOp w = 0x9#4 ∧ fieldN w ≠ 0x0#4) ∨
    (fieldOp w = 0xE#4 ∧ fieldKk w ∉ [0x9E#8, 0xA1#8]) ∨
    (fieldOp w = 0xF#4 ∧
      fieldKk w ∉ [0x07#8, 0x0A#8, 0x15#8, 0x18#8, 0x1E#8, 0x29#8, 0x33#8, 0x55#8, 0x65#8])

/-- Words written out in the spec's rules and vectors decode to the instructions they stand for (R88; the patterns are D3,
log entry 7; that 0xA300 is an instruction is D4, log entry 8), and the words 0x0123 and 0xE0FF are unknown (R89; that they
are illegal is D5, log entry 9). -/
def Obligations.WrittenOutWordsDecode : Prop :=
  decode 0x00E0 = .insn .cls ∧ decode 0x00EE = .insn .ret ∧ decode 0x1234 = .insn (.jp 0x234) ∧
  decode 0x3342 = .insn (.seImm 3 0x42) ∧ decode 0x6A2B = .insn (.ldImm 10 0x2B) ∧
  decode 0x8124 = .insn (.addReg 1 2) ∧ decode 0x810E = .insn (.shl 1 0) ∧ decode 0xA300 = .insn (.ldI 0x300) ∧
  decode 0xD125 = .insn (.drw 1 2 5) ∧ decode 0xE59E = .insn (.skp 5) ∧ decode 0xF20A = .insn (.ldVxKey 2) ∧
  decode 0xF265 = .insn (.load 2) ∧ decode 0x0123 = .unknown 0x0123 ∧ decode 0xE0FF = .unknown 0xE0FF

/-- The parameter `HAS_ANNN` of D4 (log entry 8) decides the words `0xANNN` and no other word. -/
def Obligations.HasAnnnDecidesOnlyAnnn : Prop :=
  ∀ w : Word,
    (w &&& 0xF000#16 = 0xA000#16 →
      decodeWith true w = .insn (.ldI (fieldNnn w)) ∧ decodeWith false w = .unknown w) ∧
    (w &&& 0xF000#16 ≠ 0xA000#16 → decodeWith false w = decodeWith true w)

/-! ## The single step (40_step.md) -/

/-- A step that is admitted and whose two bytes at `PC` decode to an instruction is `exec` of that instruction on the
state with `PC + 2` and `PHASE = Stepping`, and then, if it did not fault, one decay of `DT` (R101-R107). -/
def Obligations.StepRunsDecodedInstruction : Prop :=
  ∀ (s : State) (hi lo : Byte) (i : Instr), s.admitted →
    s.memRead s.pc.toNat = some hi → s.memRead (s.pc.toNat + 1) = some lo → decode (wordOfBytes hi lo) = .insn i →
    step s =
      match exec i { s with pc := s.pc + 2, phase := .stepping } with
      | .next t => .next { t with dt := if t.dt = 0 then 0 else t.dt - 1 }
      | .fault r => .fault r
      | .refused r => .refused r

/-- A fetch that passes the end of memory faults at its first byte outside, without a word in the record (R101, R237; the
fault is D11, log entry 10). -/
def Obligations.FetchOutsideMemoryFaults : Prop :=
  ∀ s : State, s.admitted →
    (4096 ≤ s.pc.toNat → step s = .fault (.memoryOutOfBounds s.pc.toNat s.pc none)) ∧
    (s.pc.toNat = 4095 → step s = .fault (.memoryOutOfBounds 4096 s.pc none))

/-- A fetched word that matches no row faults, and the record holds the word and `pc0` (R103, R232). -/
def Obligations.UnknownWordFaults : Prop :=
  ∀ (s : State) (hi lo : Byte), s.admitted →
    s.memRead s.pc.toNat = some hi → s.memRead (s.pc.toNat + 1) = some lo →
    (∀ i, decode (wordOfBytes hi lo) ≠ .insn i) →
    step s = .fault (.unknownInstruction (wordOfBytes hi lo) s.pc)

/-- A step is refused exactly when it does not exist: after a fault, before a Load, after a failed Load; an admitted step
of any instruction is never refused (R100, R263; PHASE is D23, log entry 25). -/
def Obligations.StepRefusedExactlyWhenNotAdmitted : Prop :=
  ∀ s : State,
    (∀ record, s.status = .faulted record → step s = .refused .halted) ∧
    (s.status = .running → s.phase = .reset → step s = .refused .noProgram) ∧
    (∀ reason, s.status = .running → s.phase = .loadFailed reason → step s = .refused .loadFailed) ∧
    (s.admitted → ∀ why, step s ≠ .refused why)

/-- The faults of execution and their causes: each kind comes only from its own instructions and only under its own
condition, and the record holds `pc0`, the word and the info of R230 (R230, R236; D11, D17, D18, log entries 10-12, 28). -/
def Obligations.FaultsComeOnlyFromTheirCauses : Prop :=
  ∀ (i : Instr) (s : State) (f : Fault), exec i s = .fault f →
    match f with
    | .unknownInstruction _ _ => False
    | .stackOverflow pc0 w => (∃ nnn, i = .call nnn) ∧ s.sp.val = 16 ∧ pc0 = s.pc - 2 ∧ w = encode i
    | .stackUnderflow pc0 w => i = .ret ∧ s.sp.val = 0 ∧ pc0 = s.pc - 2 ∧ w = encode i
    | .memoryOutOfBounds a pc0 w =>
      ((∃ x y n, i = .drw x y n ∧ n ≠ 0 ∧ 4096 < s.i.toNat + n.toNat) ∨ (∃ x, i = .ldBVx x ∧ 4096 < s.i.toNat + 3) ∨
        (∃ x, i = .dump x ∧ 4096 < s.i.toNat + x.val + 1) ∨ (∃ x, i = .load x ∧ 4096 < s.i.toNat + x.val + 1)) ∧
      a = firstBad s.i.toNat ∧ pc0 = s.pc - 2 ∧ w = some (encode i)
    | .keyIndexOutOfRange vx pc0 w =>
      (∃ x, (i = .skp x ∨ i = .sknp x) ∧ vx = s.getV x) ∧ 15 < vx.toNat ∧ pc0 = s.pc - 2 ∧ w = encode i
    | .indexOverflow sum pc0 w =>
      (∃ x, i = .addIVx x ∧ sum = s.i.toNat + (s.getV x).toNat) ∧ 0xFFFF < sum ∧ pc0 = s.pc - 2 ∧ w = encode i

/-- `DT` counts down by one, never below zero, once in every completed step, after the instruction: the step of `FX15`
counts down the value it wrote, every other step the value it found. The step does not count `ST` down: but for `FX18`,
which writes it, `ST` is as before (R105). -/
def Obligations.DelayTimerCountsDownOncePerStep : Prop :=
  ∀ (s t : State) (w : Word) (i : Instr),
    fetch s.mem s.pc = .ok w → decode w = .insn i → step s = .next t →
    (∀ x, i = .ldDtVx x → t.dt.toNat = (s.getV x).toNat - 1) ∧
    ((∀ x, i ≠ .ldDtVx x) → t.dt.toNat = s.dt.toNat - 1) ∧
    ((∀ x, i ≠ .ldStVx x) → t.st = s.st)

/-- What a completed step leaves to the host: the key surface is as before, `REDRAW` is never cleared, `ST` changes only in
the step of `FX18`; the machine is running and stepping (R40, R41, R37, R101, R195). -/
def Obligations.StepLeavesHostSideAlone : Prop :=
  ∀ (s t : State), step s = .next t →
    t.key = s.key ∧ (s.redraw = true → t.redraw = true) ∧ t.status = .running ∧ t.phase = .stepping ∧
    (t.st ≠ s.st → ∃ w x, fetch s.mem s.pc = .ok w ∧ decode w = .insn (.ldStVx x))

/-- Only the writes that an instruction's rule names change state (R104): the frame of every instruction, by the table of
R47; the stored bytes of `FX33` and `FX55` start at `I` and are 3 and `x + 1`. That `FX33`, `FX55`, `FX65` and `DXYN` keep
`I` is the spec's own choice D19 (R210; log entry 19), and draws are the model's own field (log entry 6). -/
def Obligations.ExecWritesOnlyWhatItsRuleNames : Prop :=
  ∀ (i : Instr) (s t : State), exec i s = .next t →
    KeepsBut (writes i) s t ∧ KeepsRegsBut (writesRegs i) s t ∧
    (∀ a, a < s.i.toNat ∨ s.i.toNat + storeCount i ≤ a → t.memRead a = s.memRead a) ∧
    t.draws = (if readsDraw i = true then s.draws + 1 else s.draws)

/-- `00E0` and `DXYN` set `REDRAW` on every execution, even when no pixel changed; no other instruction changes it (R175). -/
def Obligations.RedrawIsSetUnconditionally : Prop :=
  (∀ (s t : State), exec .cls s = .next t → t.redraw = true) ∧
  (∀ (x y : Reg) (n : Nibble) (s t : State), exec (.drw x y n) s = .next t → t.redraw = true) ∧
  (∀ (i : Instr) (s t : State), i ≠ .cls → (∀ x y n, i ≠ .drw x y n) → exec i s = .next t → t.redraw = s.redraw)

/-! ## Invariants -/

/-- Every step keeps the invariant: memory in canonical form, `PC` at most 0x10FE (R33, R127), every stack cell at most
0x1000 (R120), every key flag 0 or 1 (R40). -/
def Obligations.StepKeepsInvariant : Prop := ∀ s t : State, s.Inv → step s = .next t → t.Inv

/-- The state after Reset meets the invariant (R48). -/
def Obligations.ResetMeetsInvariant : Prop := State.reset.Inv

/-- Every host action keeps the machine's invariant: Reset, Load, Step with or without a fault, the key writes, the
renderer and the sound tick (R247, R261-R263; log entries 4, 23). -/
def Obligations.HostActionsKeepInvariant : Prop :=
  ∀ (r r' : Session) (a : HostAction), r.machine.Inv → r.act a = .next r' → r'.machine.Inv

/-! ## Reset (70_reset_and_hazards.md R260, 10_state.md R48) -/

/-- What Reset leaves in the registers, the stack, the timers, the framebuffer and the key surface (10_state.md section 6,
from the source's section 4.1). -/
def Obligations.ResetZeroesRegisters : Prop :=
  (∀ x, State.reset.getV x = 0) ∧ State.reset.i = 0 ∧ State.reset.pc = 0x200 ∧
  (∀ k : Fin 16, State.reset.stack[k.val] = 0) ∧ State.reset.sp.val = 0 ∧ State.reset.dt = 0 ∧ State.reset.st = 0 ∧
  (∀ x y, x < 64 → y < 32 → State.reset.pixel x y = false) ∧ (∀ k : Fin 16, State.reset.key[k.val] = 0)

/-- What Reset leaves where the spec decided it: FONT in 0x000-0x04F, whatever its bytes (D7, log entry 1), 0 in the rest of
memory (D8, log entry 2), nothing at 4096 or more (D11), `REDRAW` false (D9, log entry 3), `STATUS` Running (D20) and
`PHASE` Reset (D23, log entry 25). -/
def Obligations.ResetMemoryAndLaunch : Prop :=
  (∀ a, a < 80 → State.reset.memRead a = font[a]?) ∧ (∀ a, 80 ≤ a → a < 4096 → State.reset.memRead a = some 0) ∧
  (∀ a, 4096 ≤ a → State.reset.memRead a = none) ∧ State.reset.redraw = false ∧ State.reset.status = .running ∧
  State.reset.phase = .reset

/-! ## Control flow (41_control_flow.md) -/

/-- `00EE`: with `SP = 0` it faults StackUnderflow with `pc0`; else `SP` counts down, `PC` is the popped cell, and nothing
else changes, the cells included (R120). -/
def Obligations.RetPopsOrUnderflows : Prop :=
  ∀ s : State,
    (s.sp.val = 0 → ∃ w, exec .ret s = .fault (.stackUnderflow (s.pc - 2) w)) ∧
    (0 < s.sp.val → ∃ t, exec .ret s = .next t ∧ t.sp.val = s.sp.val - 1 ∧ some t.pc = s.stack[s.sp.val - 1]? ∧
      t.stack = s.stack ∧ KeepsBut [.pc, .stack] s t)

/-- `1NNN`: `PC` is `nnn`, and nothing else changes (R121). -/
def Obligations.JumpSetsPc : Prop :=
  ∀ (nnn : Addr12) (s : State), ∃ t, exec (.jp nnn) s = .next t ∧ t.pc.toNat = nnn.toNat ∧ KeepsBut [.pc] s t

/-- `2NNN`: with `SP = 16` it faults StackOverflow with `pc0`; else the address after the call is pushed, `SP` counts up
and `PC` is `nnn`; every other cell is kept (R122). -/
def Obligations.CallPushesOrOverflows : Prop :=
  ∀ (nnn : Addr12) (s : State),
    (s.sp.val = 16 → ∃ w, exec (.call nnn) s = .fault (.stackOverflow (s.pc - 2) w)) ∧
    (s.sp.val < 16 → ∃ t, exec (.call nnn) s = .next t ∧ t.sp.val = s.sp.val + 1 ∧ t.pc.toNat = nnn.toNat ∧
      (∀ k : Fin 16, t.stack[k.val] = if k.val = s.sp.val then s.pc else s.stack[k.val]) ∧
      KeepsBut [.pc, .stack] s t)

/-- A call followed by a return restores `PC` to the instruction after the call and leaves `SP` where it started (R120,
R122; the source's worked example W6). -/
def Obligations.CallThenReturnRestoresPc : Prop :=
  ∀ (nnn : Addr12) (s t : State), exec (.call nnn) s = .next t →
    ∃ u, exec .ret t = .next u ∧ u.pc = s.pc ∧ u.sp = s.sp ∧ KeepsBut [.pc, .stack] s u

/-- `3XKK` skips 2 bytes when `VX = kk`, `4XKK` when it is not; nothing else changes (R123, R124). -/
def Obligations.SkipsCompareImmediate : Prop :=
  ∀ (x : Reg) (kk : Byte) (s : State),
    (∃ t, exec (.seImm x kk) s = .next t ∧ t.pc = (if s.getV x = kk then s.pc + 2 else s.pc) ∧ KeepsBut [.pc] s t) ∧
    (∃ t, exec (.sneImm x kk) s = .next t ∧ t.pc = (if s.getV x = kk then s.pc else s.pc + 2) ∧ KeepsBut [.pc] s t)

/-- `5XY0` skips 2 bytes when `VX = VY`, always with `x = y`; `9XY0` when it is not, never with `x = y`; nothing else
changes (R125, R126). -/
def Obligations.SkipsCompareRegisters : Prop :=
  ∀ (x y : Reg) (s : State),
    (∃ t, exec (.seReg x y) s = .next t ∧ t.pc = (if s.getV x = s.getV y then s.pc + 2 else s.pc) ∧
      (x = y → t.pc = s.pc + 2) ∧ KeepsBut [.pc] s t) ∧
    (∃ t, exec (.sneReg x y) s = .next t ∧ t.pc = (if s.getV x = s.getV y then s.pc else s.pc + 2) ∧
      (x = y → t.pc = s.pc) ∧ KeepsBut [.pc] s t)

/-- `BNNN`: `PC` is the exact sum `nnn + V0`, not masked to 12 bits (R127; the missing mask is D28, log entry 21). -/
def Obligations.JumpWithOffsetIsExact : Prop :=
  ∀ (nnn : Addr12) (s : State),
    ∃ t, exec (.jpV0 nnn) s = .next t ∧ t.pc.toNat = nnn.toNat + (s.getV v0).toNat ∧ KeepsBut [.pc] s t

/-! ## ALU and random (42_alu.md) -/

/-- `6XKK` loads `kk`; `7XKK` adds `kk` modulo 256 and touches no flag; nothing but `VX` changes (R141, R142). -/
def Obligations.LoadAndAddImmediate : Prop :=
  ∀ (x : Reg) (kk : Byte) (s : State),
    (∃ t, exec (.ldImm x kk) s = .next t ∧ t.getV x = kk ∧ KeepsRegsBut [x] s t ∧ KeepsBut [.v] s t) ∧
    (∃ t, exec (.addImm x kk) s = .next t ∧ (t.getV x).toNat = ((s.getV x).toNat + kk.toNat) % 256 ∧
      KeepsRegsBut [x] s t ∧ KeepsBut [.v] s t)

/-- `8XY0`-`8XY3`: assign, OR, AND, XOR, with VF an ordinary register; nothing but `VX` changes (R143-R146). -/
def Obligations.AssignOrAndXor : Prop :=
  ∀ (x y : Reg) (s : State),
    (∃ t, exec (.ldReg x y) s = .next t ∧ t.getV x = s.getV y ∧ KeepsRegsBut [x] s t ∧ KeepsBut [.v] s t) ∧
    (∃ t, exec (.orReg x y) s = .next t ∧ t.getV x = s.getV x ||| s.getV y ∧ KeepsRegsBut [x] s t ∧
      KeepsBut [.v] s t) ∧
    (∃ t, exec (.andReg x y) s = .next t ∧ t.getV x = s.getV x &&& s.getV y ∧ KeepsRegsBut [x] s t ∧
      KeepsBut [.v] s t) ∧
    (∃ t, exec (.xorReg x y) s = .next t ∧ t.getV x = s.getV x ^^^ s.getV y ∧ KeepsRegsBut [x] s t ∧
      KeepsBut [.v] s t)

/-- `8XY4`, VF not an operand: the sum modulo 256, and `VF = 1` when there is NO overflow, 0 when there is one (R147). -/
def Obligations.AddInvertsItsOverflowFlag : Prop :=
  ∀ (x y : Reg) (s : State), x ≠ vf → y ≠ vf →
    ∃ t, exec (.addReg x y) s = .next t ∧
      (t.getV x).toNat = ((s.getV x).toNat + (s.getV y).toNat) % 256 ∧
      t.getV vf = (if (s.getV x).toNat + (s.getV y).toNat > 255 then 0 else 1) ∧
      KeepsRegsBut [x, vf] s t ∧ KeepsBut [.v] s t

/-- `8XY5` and `8XY7`, VF not an operand: the difference modulo 256, and `VF = 1` when there is no borrow, equal operands
included (R148, R150; equal operands are D15, log entry 16). -/
def Obligations.SubtractsFlagNoBorrow : Prop :=
  ∀ (x y : Reg) (s : State), x ≠ vf → y ≠ vf →
    (∃ t, exec (.subReg x y) s = .next t ∧
      (t.getV x).toNat = ((s.getV x).toNat + 256 - (s.getV y).toNat) % 256 ∧
      t.getV vf = (if (s.getV x).toNat ≥ (s.getV y).toNat then 1 else 0) ∧
      KeepsRegsBut [x, vf] s t ∧ KeepsBut [.v] s t) ∧
    (∃ t, exec (.subnReg x y) s = .next t ∧
      (t.getV x).toNat = ((s.getV y).toNat + 256 - (s.getV x).toNat) % 256 ∧
      t.getV vf = (if (s.getV y).toNat ≥ (s.getV x).toNat then 1 else 0) ∧
      KeepsRegsBut [x, vf] s t ∧ KeepsBut [.v] s t)

/-- `8XY6` and `8XYE`, `x` not VF: `VX` is shifted by one, whatever `y` is, and `VF` is the bit shifted out (R149, R151). -/
def Obligations.ShiftsUseVxOnly : Prop :=
  ∀ (x y : Reg) (s : State), x ≠ vf →
    (∃ t, exec (.shr x y) s = .next t ∧ (t.getV x).toNat = (s.getV x).toNat / 2 ∧
      (t.getV vf).toNat = (s.getV x).toNat % 2 ∧ KeepsRegsBut [x, vf] s t ∧ KeepsBut [.v] s t) ∧
    (∃ t, exec (.shl x y) s = .next t ∧ (t.getV x).toNat = 2 * (s.getV x).toNat % 256 ∧
      (t.getV vf).toNat = (s.getV x).toNat / 128 ∧ KeepsRegsBut [x, vf] s t ∧ KeepsBut [.v] s t)

/-- VF named as an operand of a flag-writing ALU instruction: the instruction completes, `VF` gets the free value
`draw.anyF`, `VX` the free value `draw.anyX` unless it is `VF`, and nothing else changes but the count of draws (R140, D14;
log entry 6). It holds for every value of the draws. -/
def Obligations.VfOperandTakesDraws : Prop :=
  (∀ (x y : Reg) (s : State), x = vf ∨ y = vf → ∀ i ∈ [Instr.addReg x y, Instr.subReg x y, Instr.subnReg x y],
    ∃ t, exec i s = .next t ∧ t.getV vf = Config.drawAnyF s.draws ∧ (x ≠ vf → t.getV x = Config.drawAnyX s.draws) ∧
      KeepsRegsBut [x, vf] s t ∧ KeepsBut [.v, .draws] s t ∧ t.draws = s.draws + 1) ∧
  (∀ (y : Reg) (s : State), ∀ i ∈ [Instr.shr vf y, Instr.shl vf y],
    ∃ t, exec i s = .next t ∧ t.getV vf = Config.drawAnyF s.draws ∧
      KeepsRegsBut [vf] s t ∧ KeepsBut [.v, .draws] s t ∧ t.draws = s.draws + 1)

/-- `CXKK`: `VX` is the free value `draw.rnd` AND `kk`, so a bit clear in `kk` is clear in `VX`; nothing else changes but
the count of draws (R152, D22; log entry 6). It holds for every value of the draw. -/
def Obligations.RandomIsAndedWithImmediate : Prop :=
  ∀ (x : Reg) (kk : Byte) (s : State),
    ∃ t, exec (.rnd x kk) s = .next t ∧ t.getV x = Config.drawRnd s.draws &&& kk ∧
      (∀ j, kk.getLsbD j = false → (t.getV x).getLsbD j = false) ∧
      KeepsRegsBut [x] s t ∧ KeepsBut [.v, .draws] s t ∧ t.draws = s.draws + 1

/-! ## Display (43_display.md) -/

/-- `00E0`: every pixel is 0 and `REDRAW` is true; nothing else changes (R170). -/
def Obligations.ClsClearsTheScreen : Prop :=
  ∀ s : State, ∃ t, exec .cls s = .next t ∧ (∀ x y, x < 64 → y < 32 → t.pixel x y = false) ∧ t.redraw = true ∧
    KeepsBut [.fb, .redraw] s t

/-- `DXYN`, its row bytes inside memory: each pixel inside the screen that the sprite covers is flipped and every other
pixel is kept; pixels outside are dropped, with no wrap; `VF` is 1 when a covered pixel was set and 0 when none was, for the
whole sprite; `REDRAW` is true; the coordinates are the old `VX` and `VY` even where they are `VF` (R171-R174; sampling and
row reads are D16, log entry 17; bit 7 as column 0 is D30, log entry 18). -/
def Obligations.DrawXorsClipsAndReportsCollision : Prop :=
  ∀ (x y : Reg) (n : Nibble) (s : State), n = 0 ∨ s.i.toNat + n.toNat ≤ 4096 →
    ∃ t, exec (.drw x y n) s = .next t ∧
      (∀ px py, px < 64 → py < 32 → t.pixel px py =
        (s.pixel px py ^^
          spriteCovers (s.getV x).toNat (s.getV y).toNat n.toNat (fun r => s.mem.read (s.i.toNat + r)) px py)) ∧
      ((∃ px py, px < 64 ∧ py < 32 ∧ s.pixel px py = true ∧
        spriteCovers (s.getV x).toNat (s.getV y).toNat n.toNat (fun r => s.mem.read (s.i.toNat + r)) px py = true) →
        t.getV vf = 1) ∧
      ((∀ px py, px < 64 → py < 32 → s.pixel px py = true →
        spriteCovers (s.getV x).toNat (s.getV y).toNat n.toNat (fun r => s.mem.read (s.i.toNat + r)) px py = false) →
        t.getV vf = 0) ∧
      t.redraw = true ∧ KeepsRegsBut [vf] s t ∧ KeepsBut [.v, .fb, .redraw] s t

/-- Drawing the same sprite twice at the same place restores the framebuffer; the second draw reports a collision exactly
when some covered pixel inside the screen was clear before the first (R171, R174; the coordinates must not be `VF`, which
the first draw writes). The corner case of R171 that says a set bit in bounds is enough is true of a clear screen; the
pseudocode decides here. -/
def Obligations.DrawingTwiceRestoresTheScreen : Prop :=
  ∀ (x y : Reg) (n : Nibble) (s t : State), x ≠ vf → y ≠ vf → exec (.drw x y n) s = .next t →
    ∃ u, exec (.drw x y n) t = .next u ∧ u.fb = s.fb ∧
      (u.getV vf = 1 ↔ ∃ px py, px < 64 ∧ py < 32 ∧ s.pixel px py = false ∧
        spriteCovers (s.getV x).toNat (s.getV y).toNat n.toNat (fun r => s.mem.read (s.i.toNat + r)) px py = true)

/-! ## Keys and timers (44_keys_timers.md) -/

/-- `EX9E` and `EXA1`: with `VX` at most 15 they skip 2 bytes when key `VX` is pressed, or is not; with `VX` above 15 they
fault KeyIndexOutOfRange (R190, R191; the fault is D17, log entry 11). -/
def Obligations.KeySkips : Prop :=
  ∀ (x : Reg) (s : State),
    (∀ k : Fin 16, (s.getV x).toNat = k.val →
      (∃ t, exec (.skp x) s = .next t ∧ t.pc = (if s.key[k.val] ≠ 0 then s.pc + 2 else s.pc) ∧ KeepsBut [.pc] s t) ∧
      (∃ t, exec (.sknp x) s = .next t ∧ t.pc = (if s.key[k.val] = 0 then s.pc + 2 else s.pc) ∧ KeepsBut [.pc] s t)) ∧
    (15 < (s.getV x).toNat →
      exec (.skp x) s = .fault (.keyIndexOutOfRange (s.getV x) (s.pc - 2) (encode (.skp x))) ∧
      exec (.sknp x) s = .fault (.keyIndexOutOfRange (s.getV x) (s.pc - 2) (encode (.sknp x))))

/-- `FX07` reads `DT` as it was before this step's decay; `FX15` writes `DT`; `FX18` writes `ST`; nothing else changes
(R192, R194, R195). -/
def Obligations.TimerTransfers : Prop :=
  ∀ (x : Reg) (s : State),
    (∃ t, exec (.ldVxDt x) s = .next t ∧ t.getV x = s.dt ∧ KeepsRegsBut [x] s t ∧ KeepsBut [.v] s t) ∧
    (∃ t, exec (.ldDtVx x) s = .next t ∧ t.dt = s.getV x ∧ KeepsBut [.dt] s t) ∧
    (∃ t, exec (.ldStVx x) s = .next t ∧ t.st = s.getV x ∧ KeepsBut [.st] s t)

/-- `FX0A`: with keys pressed it completes at once and `VX` is the highest pressed index; with none `PC` rolls back by 2 and
nothing else changes (R193). -/
def Obligations.WaitForKeyTakesTheHighest : Prop :=
  ∀ (x : Reg) (s : State),
    (∀ k : Fin 16, s.key[k.val] ≠ 0 → (∀ j : Fin 16, k < j → s.key[j.val] = 0) →
      ∃ t, exec (.ldVxKey x) s = .next t ∧ (t.getV x).toNat = k.val ∧ KeepsRegsBut [x] s t ∧ KeepsBut [.v] s t) ∧
    ((∀ k : Fin 16, s.key[k.val] = 0) →
      ∃ t, exec (.ldVxKey x) s = .next t ∧ t.pc = s.pc - 2 ∧ KeepsBut [.pc] s t)

/-- A run of `FX0A` steps with no key pressed, and no host action between them, never gets past it: after any number of
steps `PC` is the same, only `DT` has counted down (R193, R252, R111, R105). -/
def Obligations.WaitForKeyRepeatsForever : Prop :=
  ∀ (k : Nat) (s : State) (w : Word) (x : Reg), s.admitted → fetch s.mem s.pc = .ok w →
    decode w = .insn (.ldVxKey x) → (∀ j : Fin 16, s.key[j.val] = 0) →
    ∃ t, core.run k s = .next t ∧ t.dt.toNat = s.dt.toNat - k ∧ KeepsBut [.dt, .launch] s t ∧ t.admitted

/-! ## Index register and memory blocks (45_index_memory.md) -/

/-- `ANNN`: `I` is `nnn`; nothing else changes (R211; the instruction itself is D4, log entry 8). -/
def Obligations.LoadIndexImmediate : Prop :=
  ∀ (nnn : Addr12) (s : State), ∃ t, exec (.ldI nnn) s = .next t ∧ t.i.toNat = nnn.toNat ∧ KeepsBut [.i] s t

/-- `FX1E`: `I` is the exact sum, kept in 16 bits without masking, `VF` untouched; a sum above 0xFFFF faults IndexOverflow
(R212; the fault is D18, log entry 12). -/
def Obligations.AddToIndexIsExact : Prop :=
  ∀ (x : Reg) (s : State),
    (s.i.toNat + (s.getV x).toNat ≤ 0xFFFF →
      ∃ t, exec (.addIVx x) s = .next t ∧ t.i.toNat = s.i.toNat + (s.getV x).toNat ∧ KeepsBut [.i] s t) ∧
    (0xFFFF < s.i.toNat + (s.getV x).toNat →
      exec (.addIVx x) s =
        .fault (.indexOverflow (s.i.toNat + (s.getV x).toNat) (s.pc - 2) (encode (.addIVx x))))

/-- `FX29`: `I` is `VX * 5`, with `VX` not reduced to 4 bits; nothing else changes (R213). -/
def Obligations.GlyphAddressIsFiveTimesVx : Prop :=
  ∀ (x : Reg) (s : State), ∃ t, exec (.ldFVx x) s = .next t ∧ t.i.toNat = (s.getV x).toNat * 5 ∧ KeepsBut [.i] s t

/-- `FX33`, its three bytes inside memory: the decimal digits of `VX` at `I`, `I + 1` and `I + 2`; every other byte, `I` and
every other part of the state are kept (R214; an unchanged `I` is D19, log entry 19). -/
def Obligations.BcdStoresThreeDigits : Prop :=
  ∀ (x : Reg) (s : State), s.i.toNat + 3 ≤ 4096 →
    ∃ t, exec (.ldBVx x) s = .next t ∧
      t.memRead s.i.toNat = some (BitVec.ofNat 8 ((s.getV x).toNat / 100)) ∧
      t.memRead (s.i.toNat + 1) = some (BitVec.ofNat 8 ((s.getV x).toNat / 10 % 10)) ∧
      t.memRead (s.i.toNat + 2) = some (BitVec.ofNat 8 ((s.getV x).toNat % 10)) ∧
      (∀ a, a < s.i.toNat ∨ s.i.toNat + 3 ≤ a → t.memRead a = s.memRead a) ∧ KeepsBut [.mem] s t

/-- `FX55`, its block inside memory: `V0..VX` at `I..I+x`; every other byte, `I` and every other part of the state are kept
(R215; an unchanged `I` is D19, log entry 19). -/
def Obligations.RegisterDumpStoresTheBlock : Prop :=
  ∀ (x : Reg) (s : State), s.i.toNat + x.val + 1 ≤ 4096 →
    ∃ t, exec (.dump x) s = .next t ∧ (∀ r, r ≤ x → t.memRead (s.i.toNat + r.val) = some (s.getV r)) ∧
      (∀ a, a < s.i.toNat ∨ s.i.toNat + x.val + 1 ≤ a → t.memRead a = s.memRead a) ∧ KeepsBut [.mem] s t

/-- `FX65`, its block inside memory: `V0..VX` from `I..I+x`; the registers above `VX`, `I` and every other part of the state
are kept (R216; an unchanged `I` is D19, log entry 19). -/
def Obligations.RegisterLoadReadsTheBlock : Prop :=
  ∀ (x : Reg) (s : State), s.i.toNat + x.val + 1 ≤ 4096 →
    ∃ t, exec (.load x) s = .next t ∧ (∀ r, r ≤ x → some (t.getV r) = s.memRead (s.i.toNat + r.val)) ∧
      (∀ r, x < r → t.getV r = s.getV r) ∧ KeepsBut [.v] s t

/-- `DXYN`, `FX33`, `FX55` and `FX65` with a byte at 4096 or more fault at the first such address (R171, R214-R216,
R233; the fault is D11, log entry 10, clipped rows are D16, log entry 17). -/
def Obligations.BlocksFaultAtTheFirstBadAddress : Prop :=
  ∀ (x y : Reg) (n : Nibble) (s : State),
    (n ≠ 0 → 4096 < s.i.toNat + n.toNat → exec (.drw x y n) s =
      .fault (.memoryOutOfBounds (max 4096 s.i.toNat) (s.pc - 2) (some (encode (.drw x y n))))) ∧
    (4096 < s.i.toNat + 3 → exec (.ldBVx x) s =
      .fault (.memoryOutOfBounds (max 4096 s.i.toNat) (s.pc - 2) (some (encode (.ldBVx x))))) ∧
    (4096 < s.i.toNat + x.val + 1 → exec (.dump x) s =
      .fault (.memoryOutOfBounds (max 4096 s.i.toNat) (s.pc - 2) (some (encode (.dump x)))) ∧
      exec (.load x) s =
      .fault (.memoryOutOfBounds (max 4096 s.i.toNat) (s.pc - 2) (some (encode (.load x)))))

/-- A store is seen by the next fetch of the stored bytes: after `FX55` of at least two registers, a fetch at `I` gives the
word of `V0` and `V1` (R72, D13; log entry 15). -/
def Obligations.StoreIsSeenByTheNextFetch : Prop :=
  ∀ (x : Reg) (s t : State), 1 ≤ x.val → exec (.dump x) s = .next t →
    fetch t.mem s.i = .ok (wordOfBytes (s.getV 0) (s.getV 1))

/-! ## What a program cannot see -/

/-- `REDRAW` and `ST` never change what a step does to anything else: no instruction reads them (R45, R250). -/
def Obligations.RedrawAndSoundAreInvisible : Prop :=
  ∀ (s : State) (redraw : Bool) (st : Byte),
    (∀ t, step s = .next t → ∃ t', step { s with redraw := redraw, st := st } = .next t' ∧
      t' = { t with redraw := t'.redraw, st := t'.st }) ∧
    (∀ f, step s = .fault f → step { s with redraw := redraw, st := st } = .fault f) ∧
    (∀ why, step s = .refused why → step { s with redraw := redraw, st := st } = .refused why)

/-- An instruction that reads no draw has the same outcome under every draw (R108, R109; which draw a step gets is the
model's field `draws`, log entry 6). -/
def Obligations.OnlyDrawReadersDependOnDraws : Prop :=
  ∀ (i : Instr) (s : State) (n : Nat), readsDraw i = false →
    (∀ t, exec i s = .next t → exec i { s with draws := n } = .next { t with draws := n }) ∧
    (∀ f, exec i s = .fault f → exec i { s with draws := n } = .fault f)

/-! ## Load and the host (70_reset_and_hazards.md R261-R263, 60_exceptions.md R240, R247-R250) -/

/-- Load of 1 to 3584 bytes in `PHASE = Reset` copies the image to 0x200 and makes `PHASE` be `Loaded`; every other byte and
every other part of the state are kept (R262; PHASE is D23, log entry 25). -/
def Obligations.LoadCopiesTheImage : Prop :=
  ∀ (image : List Byte) (s : State), s.phase = .reset → 1 ≤ image.length → image.length ≤ 3584 →
    ∃ t, s.load image = .next t ∧ t.phase = .loaded ∧ t.status = s.status ∧
      (∀ k, k < image.length → t.memRead (0x200 + k) = image[k]?) ∧
      (∀ a, a < 0x200 ∨ 0x200 + image.length ≤ a → t.memRead a = s.memRead a) ∧ KeepsBut [.mem, .launch] s t

/-- Load of an empty image fails, and of more than 3584 bytes; a failure changes nothing but `PHASE`; a Load outside
`PHASE = Reset` has no move (R261, R263; PHASE is D23, log entry 25). -/
def Obligations.LoadFailsOrIsRefused : Prop :=
  ∀ (image : List Byte) (s : State),
    (s.phase = .reset → image.length = 0 →
      ∃ t, s.load image = .next t ∧ t.phase = .loadFailed .emptyImage ∧ t.status = s.status ∧ KeepsBut [.launch] s t) ∧
    (s.phase = .reset → 3584 < image.length →
      ∃ t, s.load image = .next t ∧ t.phase = .loadFailed .imageTooLarge ∧ t.status = s.status ∧
        KeepsBut [.launch] s t) ∧
    (s.phase ≠ .reset → s.load image = .refused .loadNotAdmitted)

/-- The host's writes, each to its own field and nothing else: a key write stores 1 or 0 in one flag, the sound tick counts
`ST` down unless it is 0, the renderer clears `REDRAW` after it read the frame (R247-R250; D26, D29, log entries 22, 23,
33; that these have their move before Load too is log entry 35). -/
def Obligations.HostWritesOnlyItsFields : Prop :=
  ∀ r : Session, r.ended = false →
    (∀ (k : Fin 16) (pressed : Bool), ∃ r', r.act (.keyWrite k pressed) = .next r' ∧
      (∀ j : Fin 16, r'.machine.key[j.val] = if j = k then (if pressed then 1 else 0) else r.machine.key[j.val]) ∧
      KeepsBut [.key] r.machine r'.machine) ∧
    (∃ r', r.act .soundTick = .next r' ∧ r'.machine.st.toNat = r.machine.st.toNat - 1 ∧
      KeepsBut [.st] r.machine r'.machine) ∧
    (r.machine.redraw = true → ∃ r' r'', r.act .renderRead = .next r' ∧ r'.machine = r.machine ∧
      r'.act .redrawClear = .next r'' ∧ r''.machine.redraw = false ∧ KeepsBut [.redraw] r.machine r''.machine)

/-- A fault is final for the run: the step that faults makes `STATUS` be `Faulted` with its record, and from then on no
action but Reset has a move (R236, R240, R265; D20, log entries 4, 23). -/
def Obligations.FaultIsFinal : Prop :=
  ∀ (r : Session) (record : Fault), r.ended = false → step r.machine = .fault record →
    ∃ r', r.act .step = .next r' ∧ r'.machine.status = .faulted record ∧ r'.machine.phase = .stepping ∧
      (∀ a, a ≠ .reset → r'.act a = .refused .runEnded) ∧
      (∃ r'', r'.act .reset = .next r'' ∧ r''.machine.status = .running ∧ r''.machine.phase = .reset)

/-- Reset has a move exactly when the run has ended: a live run has no reset input, and a run that ended by Terminate, a
fault or a failed Load is followed by a new run with the reset values, in which Reset again has no move (R260, R265; that
an ended run has no other move is log entry 23; the count of draws, which goes on, is log entry 6). -/
def Obligations.ResetHasAMoveOnlyAfterTheEnd : Prop :=
  ∀ r : Session,
    (r.ended = false → r.act .reset = .refused .runLive) ∧
    (r.terminated = true ∨ (∃ record, r.machine.status = .faulted record) ∨
      (∃ reason, r.machine.phase = .loadFailed reason) → ∃ r', r.act .reset = .next r' ∧
        r'.machine = { State.reset with draws := r.machine.draws } ∧ r'.terminated = false ∧
        r'.act .reset = .refused .runLive ∧ (∀ a, a ≠ .reset → r.act a = .refused .runEnded))

/-- One driver iteration whose step completes: the keys are written, the step runs, the frame is rendered and `REDRAW`
cleared, and then `ST` counts down once (R248; the tick's place is D21, log entry 24). -/
def Obligations.DriverIterationTicksTheSoundTimer : Prop :=
  ∀ (r : Session) (keys : List (Fin 16 × Bool)) (t : State), r.ended = false →
    step (keys.foldl (fun s k => s.keyWrite k.1 k.2) r.machine) = .next t →
    ∃ r', r.driverIteration keys = .next r' ∧ r'.machine.st.toNat = t.st.toNat - 1 ∧ r'.machine.redraw = false ∧
      KeepsBut [.st, .redraw] t r'.machine
end

