-- ==== Sys2Proof/Laws/Decode.lean ====
section
/-! SUPPORT. Laws/Decode.lean: the fields of a word put together from fields, and the word put together from a word's own
fields (30_encoding.md R81, R82). -/

namespace Sys2Proof

/-- Bit `j` of a word that holds one field. -/
theorem getLsbD_placeField {k : Nat} (lo : Nat) (f : BitVec k) (j : Nat) :
    (placeField lo f).getLsbD j = (decide (j < 16) && decide (lo ≤ j) && f.getLsbD (j - lo)) := by
  simp only [placeField, BitVec.getLsbD_shiftLeft, BitVec.getLsbD_setWidth]
  by_cases h : j < 16
  · have h3 : j - lo < 16 := by omega
    by_cases h2 : lo ≤ j
    · simp [h, h2, h3]
    · simp [h, h2]
  · simp [h]

theorem reg_eq_iff (x y : Reg) : x = y ↔ (BitVec.ofFin x : BitVec 4) = BitVec.ofFin y :=
  ⟨fun h => h ▸ rfl, fun h => by injection h⟩

@[simp] theorem fieldOp_formatNnn (op : BitVec 4) (nnn : Addr12) : fieldOp (formatNnn op nnn) = op := by
  refine BitVec.eq_of_getLsbD_eq fun j hj => ?_
  simp only [fieldOp, formatNnn, BitVec.getLsbD_extractLsb', BitVec.getLsbD_or, getLsbD_placeField]
  interval_cases j <;> simp

@[simp] theorem fieldNnn_formatNnn (op : BitVec 4) (nnn : Addr12) : fieldNnn (formatNnn op nnn) = nnn := by
  refine BitVec.eq_of_getLsbD_eq fun j hj => ?_
  simp only [fieldNnn, formatNnn, BitVec.getLsbD_extractLsb', BitVec.getLsbD_or, getLsbD_placeField]
  interval_cases j <;> simp

@[simp] theorem fieldOp_formatXkk (op : BitVec 4) (x : Reg) (kk : Byte) : fieldOp (formatXkk op x kk) = op := by
  refine BitVec.eq_of_getLsbD_eq fun j hj => ?_
  generalize hb : (BitVec.ofFin x : BitVec 4) = b
  simp only [fieldOp, formatXkk, hb, BitVec.getLsbD_extractLsb', BitVec.getLsbD_or, getLsbD_placeField]
  interval_cases j <;> simp

@[simp] theorem fieldX_formatXkk (op : BitVec 4) (x : Reg) (kk : Byte) : fieldX (formatXkk op x kk) = x := by
  rw [reg_eq_iff]
  refine BitVec.eq_of_getLsbD_eq fun j hj => ?_
  generalize hb : (BitVec.ofFin x : BitVec 4) = b
  simp only [fieldX, BitVec.ofFin_toFin, formatXkk, hb, BitVec.getLsbD_extractLsb', BitVec.getLsbD_or, getLsbD_placeField]
  interval_cases j <;> simp

@[simp] theorem fieldKk_formatXkk (op : BitVec 4) (x : Reg) (kk : Byte) : fieldKk (formatXkk op x kk) = kk := by
  refine BitVec.eq_of_getLsbD_eq fun j hj => ?_
  generalize hb : (BitVec.ofFin x : BitVec 4) = b
  simp only [fieldKk, formatXkk, hb, BitVec.getLsbD_extractLsb', BitVec.getLsbD_or, getLsbD_placeField]
  interval_cases j <;> simp

@[simp] theorem fieldOp_formatXyn (op : BitVec 4) (x y : Reg) (n : Nibble) : fieldOp (formatXyn op x y n) = op := by
  refine BitVec.eq_of_getLsbD_eq fun j hj => ?_
  generalize hb : (BitVec.ofFin x : BitVec 4) = b
  generalize hc : (BitVec.ofFin y : BitVec 4) = c
  simp only [fieldOp, formatXyn, hb, hc, BitVec.getLsbD_extractLsb', BitVec.getLsbD_or, getLsbD_placeField]
  interval_cases j <;> simp

@[simp] theorem fieldX_formatXyn (op : BitVec 4) (x y : Reg) (n : Nibble) : fieldX (formatXyn op x y n) = x := by
  rw [reg_eq_iff]
  refine BitVec.eq_of_getLsbD_eq fun j hj => ?_
  generalize hb : (BitVec.ofFin x : BitVec 4) = b
  generalize hc : (BitVec.ofFin y : BitVec 4) = c
  simp only [fieldX, BitVec.ofFin_toFin, formatXyn, hb, hc, BitVec.getLsbD_extractLsb', BitVec.getLsbD_or,
    getLsbD_placeField]
  interval_cases j <;> simp

@[simp] theorem fieldY_formatXyn (op : BitVec 4) (x y : Reg) (n : Nibble) : fieldY (formatXyn op x y n) = y := by
  rw [reg_eq_iff]
  refine BitVec.eq_of_getLsbD_eq fun j hj => ?_
  generalize hb : (BitVec.ofFin x : BitVec 4) = b
  generalize hc : (BitVec.ofFin y : BitVec 4) = c
  simp only [fieldY, BitVec.ofFin_toFin, formatXyn, hb, hc, BitVec.getLsbD_extractLsb', BitVec.getLsbD_or,
    getLsbD_placeField]
  interval_cases j <;> simp

@[simp] theorem fieldN_formatXyn (op : BitVec 4) (x y : Reg) (n : Nibble) : fieldN (formatXyn op x y n) = n := by
  refine BitVec.eq_of_getLsbD_eq fun j hj => ?_
  generalize hb : (BitVec.ofFin x : BitVec 4) = b
  generalize hc : (BitVec.ofFin y : BitVec 4) = c
  simp only [fieldN, formatXyn, hb, hc, BitVec.getLsbD_extractLsb', BitVec.getLsbD_or, getLsbD_placeField]
  interval_cases j <;> simp

/-- A word of format NNN is put together from its own fields. -/
theorem formatNnn_fields (w : Word) : formatNnn (fieldOp w) (fieldNnn w) = w := by
  refine BitVec.eq_of_getLsbD_eq fun j hj => ?_
  simp only [fieldOp, fieldNnn, formatNnn, BitVec.getLsbD_extractLsb', BitVec.getLsbD_or, getLsbD_placeField]
  interval_cases j <;> simp

/-- A word of format XKK is put together from its own fields. -/
theorem formatXkk_fields (w : Word) : formatXkk (fieldOp w) (fieldX w) (fieldKk w) = w := by
  refine BitVec.eq_of_getLsbD_eq fun j hj => ?_
  simp only [fieldOp, fieldX, fieldKk, BitVec.ofFin_toFin, formatXkk, BitVec.getLsbD_extractLsb', BitVec.getLsbD_or,
    getLsbD_placeField]
  interval_cases j <;> simp

/-- A word of format XYN is put together from its own fields. -/
theorem formatXyn_fields (w : Word) : formatXyn (fieldOp w) (fieldX w) (fieldY w) (fieldN w) = w := by
  refine BitVec.eq_of_getLsbD_eq fun j hj => ?_
  simp only [fieldOp, fieldX, fieldY, fieldN, BitVec.ofFin_toFin, formatXyn, BitVec.getLsbD_extractLsb',
    BitVec.getLsbD_or, getLsbD_placeField]
  interval_cases j <;> simp

/-- The two bytes of a word, put together big-endian, are the word (R61). -/
@[simp] theorem wordOfBytes_bytes (w : Word) : wordOfBytes (highByte w) (lowByte w) = w := by
  refine BitVec.eq_of_getLsbD_eq fun j hj => ?_
  simp only [wordOfBytes, highByte, lowByte, BitVec.getLsbD_extractLsb', BitVec.getLsbD_or, getLsbD_placeField]
  interval_cases j <;> simp

end Sys2Proof
end

