-- ==== Sys2Proof/Laws/Memory.lean ====
section
/-! SUPPORT. Laws/Memory.lean: read after write, and the canonical form of memory (20_memory.md R65, R68). -/

namespace Sys2Proof.Machine

theorem Memory.lookup_erase_self (m : Memory) (a : Nat) : (m.erase a).lookup a = none := by
  induction m with
  | nil => rfl
  | cons c m ih => obtain ⟨k, b⟩ := c; by_cases h : k = a <;> simp [Memory.erase, Memory.lookup, h, ih]

theorem Memory.lookup_erase_ne (m : Memory) {a a' : Nat} (h : a' ≠ a) : (m.erase a).lookup a' = m.lookup a' := by
  induction m with
  | nil => rfl
  | cons c m ih =>
    obtain ⟨k, b⟩ := c
    by_cases hk : k = a
    · have : k ≠ a' := fun e => h (e ▸ hk)
      simp [Memory.erase, Memory.lookup, hk, ih, Ne.symm h]
    · simp [Memory.erase, Memory.lookup, hk, ih]

theorem Memory.lookup_insert_self (m : Memory) (a : Nat) (b : Byte) (h : m.lookup a = none) :
    (m.insert a b).lookup a = some b := by
  induction m with
  | nil => simp [Memory.insert, Memory.lookup]
  | cons c m ih =>
    obtain ⟨k, d⟩ := c
    by_cases hk : k = a
    · simp [Memory.lookup, hk] at h
    · have hm : Memory.lookup m a = none := by simpa [Memory.lookup, hk] using h
      by_cases hlt : a < k <;> simp [Memory.insert, Memory.lookup, hlt, hk, ih hm]

theorem Memory.lookup_insert_ne (m : Memory) {a a' : Nat} (b : Byte) (h : a' ≠ a) :
    (m.insert a b).lookup a' = m.lookup a' := by
  induction m with
  | nil => simp [Memory.insert, Memory.lookup, Ne.symm h]
  | cons c m ih =>
    obtain ⟨k, d⟩ := c
    by_cases hlt : a < k <;> simp [Memory.insert, Memory.lookup, hlt, ih, Ne.symm h]

/-- A read after a write to the same address gives the value written. -/
@[simp] theorem Memory.read_write_self (m : Memory) (a : Nat) (b : Byte) : (m.write a b).read a = b := by
  unfold Memory.write Memory.read
  split
  · simp [Memory.lookup_erase_self, *]
  · simp [Memory.lookup_insert_self _ _ _ (Memory.lookup_erase_self m a)]

/-- A write leaves every other address alone. -/
theorem Memory.read_write_ne (m : Memory) {a a' : Nat} (b : Byte) (h : a' ≠ a) : (m.write a b).read a' = m.read a' := by
  unfold Memory.write Memory.read
  split
  · rw [Memory.lookup_erase_ne m h]
  · rw [Memory.lookup_insert_ne _ b h, Memory.lookup_erase_ne m h]

theorem Memory.read_write (m : Memory) (a a' : Nat) (b : Byte) :
    (m.write a b).read a' = if a' = a then b else m.read a' := by
  split
  · subst a'; exact Memory.read_write_self m a b
  · exact Memory.read_write_ne m b ‹_›

/-! ## The canonical form -/

theorem Memory.wfFrom_mono {lo lo' : Nat} (h : lo ≤ lo') : {m : Memory} → m.wfFrom lo' = true → m.wfFrom lo = true
  | [], _ => rfl
  | (k, b) :: m, hm => by
    simp only [Memory.wfFrom, Bool.and_eq_true, decide_eq_true_eq] at hm ⊢
    exact ⟨⟨by omega, hm.1.2⟩, hm.2⟩

theorem Memory.wfFrom_erase (m : Memory) (a lo : Nat) (h : m.wfFrom lo = true) : (m.erase a).wfFrom lo = true := by
  induction m generalizing lo with
  | nil => rfl
  | cons c m ih =>
    obtain ⟨k, b⟩ := c
    simp only [Memory.wfFrom, Bool.and_eq_true, decide_eq_true_eq] at h
    by_cases hk : k = a
    · simpa [Memory.erase, hk] using Memory.wfFrom_mono (by omega) (ih _ h.2)
    · simp only [Memory.erase, hk, if_false, Memory.wfFrom, Bool.and_eq_true, decide_eq_true_eq]
      exact ⟨h.1, ih _ h.2⟩

theorem Memory.wfFrom_insert (m : Memory) (a lo : Nat) (b : Byte) (hlo : lo ≤ a) (ha : a < Config.memSize)
    (hb : b ≠ Memory.unlisted a) (hn : m.lookup a = none) (h : m.wfFrom lo = true) :
    (m.insert a b).wfFrom lo = true := by
  induction m generalizing lo with
  | nil => simp only [Memory.insert, Memory.wfFrom, Bool.and_eq_true, decide_eq_true_eq]; exact ⟨⟨hlo, ha, hb⟩, trivial⟩
  | cons c m ih =>
    obtain ⟨k, d⟩ := c
    simp only [Memory.wfFrom, Bool.and_eq_true, decide_eq_true_eq] at h
    have hk : k ≠ a := fun e => by simp [Memory.lookup, e] at hn
    by_cases hlt : a < k
    · simp only [Memory.insert, hlt, if_true, Memory.wfFrom, Bool.and_eq_true, decide_eq_true_eq]
      exact ⟨⟨hlo, ha, hb⟩, ⟨by omega, h.1.2⟩, h.2⟩
    · simp only [Memory.insert, hlt, if_false, Memory.wfFrom, Bool.and_eq_true, decide_eq_true_eq]
      refine ⟨h.1, ih _ (by omega) ?_ h.2⟩
      simpa [Memory.lookup, hk] using hn

/-- A store below 4096 keeps the canonical form. -/
theorem Memory.wf_write (m : Memory) (a : Nat) (b : Byte) (ha : a < Config.memSize) (h : m.wf = true) :
    (m.write a b).wf = true := by
  unfold Memory.write
  split
  · exact Memory.wfFrom_erase m a 0 h
  · exact Memory.wfFrom_insert _ a 0 b (Nat.zero_le a) ha ‹_› (Memory.lookup_erase_self m a) (Memory.wfFrom_erase m a 0 h)

theorem memWrite_wf {m m' : Memory} {a : Nat} {b : Byte} (h : memWrite m a b = some m') (hm : m.wf = true) :
    m'.wf = true := by
  unfold memWrite at h
  split at h
  · cases h; exact Memory.wf_write m a b ‹_› hm
  · cases h

/-- A block store keeps the canonical form. -/
theorem writeBlock_wf {bs : List Byte} {m m' : Memory} {a : Nat} (h : writeBlock m a bs = .ok m') (hm : m.wf = true) :
    m'.wf = true := by
  induction bs generalizing m a with
  | nil => cases h; exact hm
  | cons b bs ih =>
    simp only [writeBlock] at h
    split at h
    · cases h
    · exact ih h (memWrite_wf ‹_› hm)

/-- Load's copy keeps the canonical form where it stays inside memory. -/
theorem copyImage_wf (bs : List Byte) (m : Memory) (a : Nat) (ha : a + bs.length ≤ Config.memSize) (hm : m.wf = true) :
    (copyImage m a bs).wf = true := by
  induction bs generalizing m a with
  | nil => exact hm
  | cons b bs ih =>
    simp only [List.length_cons] at ha
    exact ih _ _ (by omega) (Memory.wf_write m a b (by omega) hm)

/-- Memory right after Reset is in canonical form. -/
theorem reset_mem_wf : State.reset.mem.wf = true := rfl

theorem storeIfMapped_wf (m : Memory) (a : Nat) (b : Byte) (hm : m.wf = true) : (storeIfMapped m a b).wf = true := by
  unfold storeIfMapped
  cases h : memWrite m a b with
  | none => exact hm
  | some m' => exact memWrite_wf h hm

/-! ## Blocks -/

/-- A block read succeeds exactly when every byte of it lies in memory; its error is the first address that does not. -/
theorem readBlock_eq (m : Memory) (n a : Nat) :
    readBlock m a n =
      if n = 0 ∨ a + n ≤ Config.memSize then .ok ((List.range n).map fun k => m.read (a + k))
      else .error (firstBad a) := by
  induction n generalizing a with
  | zero => simp [readBlock]
  | succ n ih =>
    simp only [readBlock, memRead, firstBad, Config.memSize, ih] at *
    by_cases ha : a < 4096
    · by_cases hn : n = 0 ∨ a + 1 + n ≤ 4096
      · have : a + (n + 1) ≤ 4096 := by omega
        simp [ha, this, Except.map, List.range_succ_eq_map, Function.comp_def, Nat.add_assoc, Nat.add_comm 1]
      · have h1 : ¬ (a + (n + 1) ≤ 4096) := by omega
        simp [ha, hn, h1, Except.map]; omega
    · have h1 : ¬ (a + (n + 1) ≤ 4096) := by omega
      simp [ha, h1]

/-- A block store succeeds exactly when every byte of it lies in memory; its error is the first address that does not. -/
theorem writeBlock_error_iff (bs : List Byte) (m : Memory) (a : Nat) :
    (bs.length = 0 ∨ a + bs.length ≤ Config.memSize → ∃ m', writeBlock m a bs = .ok m') ∧
    (¬ (bs.length = 0 ∨ a + bs.length ≤ Config.memSize) → writeBlock m a bs = .error (firstBad a)) := by
  induction bs generalizing m a with
  | nil => simp [writeBlock]
  | cons b bs ih =>
    simp only [writeBlock, memWrite, firstBad, Config.memSize, List.length_cons] at *
    by_cases ha : a < 4096
    · simp only [ha, if_true]
      refine ⟨fun h => (ih _ _).1 (by omega), fun h => ?_⟩
      rw [(ih _ _).2 (by omega)]
      split <;> simp_all <;> omega
    · simp [ha]; omega

/-- What memory reads as after a block store. -/
theorem writeBlock_read {bs : List Byte} {m m' : Memory} {a : Nat} (h : writeBlock m a bs = .ok m') (x : Nat) :
    m'.read x = if a ≤ x ∧ x < a + bs.length then bs.getD (x - a) 0 else m.read x := by
  induction bs generalizing m a with
  | nil => cases h; rw [if_neg (by simp only [List.length_nil]; omega)]
  | cons b bs ih =>
    simp only [writeBlock] at h
    split at h
    · cases h
    · rename_i m1 h1
      unfold memWrite at h1
      split at h1
      · cases h1
        rw [ih h]
        simp only [List.length_cons]
        by_cases hx : x = a
        · subst hx; rw [if_neg (by omega), if_pos (by omega), Nat.sub_self, List.getD_cons_zero, Memory.read_write_self]
        · by_cases hr : a + 1 ≤ x ∧ x < a + 1 + bs.length
          · have h2 : x - a = (x - (a + 1)) + 1 := by omega
            rw [if_pos hr, if_pos (by omega), h2, List.getD_cons_succ]
          · rw [if_neg hr, if_neg (by omega), Memory.read_write_ne _ _ hx]
      · cases h1

/-- What memory reads as after Load's copy. -/
theorem copyImage_read (bs : List Byte) (m : Memory) (a x : Nat) :
    (copyImage m a bs).read x = if a ≤ x ∧ x < a + bs.length then bs.getD (x - a) 0 else m.read x := by
  induction bs generalizing m a with
  | nil => rw [copyImage, if_neg (by simp only [List.length_nil]; omega)]
  | cons b bs ih =>
    rw [copyImage, ih]
    simp only [List.length_cons]
    by_cases hx : x = a
    · subst hx; rw [if_neg (by omega), if_pos (by omega)]; simp
    · by_cases hr : a + 1 ≤ x ∧ x < a + 1 + bs.length
      · have h2 : x - a = (x - (a + 1)) + 1 := by omega
        rw [if_pos hr, if_pos (by omega), h2, List.getD_cons_succ]
      · rw [if_neg hr, if_neg (by omega), Memory.read_write_ne _ _ hx]

/-- A fetch inside memory gives the big-endian word of two bytes; else it fails at the first byte outside. -/
theorem fetch_eq (m : Memory) (pc0 : Word) :
    fetch m pc0 = if pc0.toNat + 1 < Config.memSize then .ok (wordOfBytes (m.read pc0.toNat) (m.read (pc0.toNat + 1)))
      else .error (if pc0.toNat < Config.memSize then pc0.toNat + 1 else pc0.toNat) := by
  unfold fetch memRead
  by_cases h1 : pc0.toNat < Config.memSize <;> by_cases h2 : pc0.toNat + 1 < Config.memSize <;> simp [h1, h2] <;> omega

end Sys2Proof.Machine
end

