-- ==== Sys2Proof/Laws/State.lean ====
section
/-! SUPPORT. Laws/State.lean: what each update of the state does to each field, one lemma per field per update. -/

namespace Sys2Proof.Machine

@[simp] theorem State.setV_v (s : State) (x : Reg) (b : Byte) : (s.setV x b).v = s.v.set x.val b := rfl
@[simp] theorem State.setV_i (s : State) (x : Reg) (b : Byte) : (s.setV x b).i = s.i := rfl
@[simp] theorem State.setV_pc (s : State) (x : Reg) (b : Byte) : (s.setV x b).pc = s.pc := rfl
@[simp] theorem State.setV_stack (s : State) (x : Reg) (b : Byte) : (s.setV x b).stack = s.stack := rfl
@[simp] theorem State.setV_sp (s : State) (x : Reg) (b : Byte) : (s.setV x b).sp = s.sp := rfl
@[simp] theorem State.setV_dt (s : State) (x : Reg) (b : Byte) : (s.setV x b).dt = s.dt := rfl
@[simp] theorem State.setV_st (s : State) (x : Reg) (b : Byte) : (s.setV x b).st = s.st := rfl
@[simp] theorem State.setV_mem (s : State) (x : Reg) (b : Byte) : (s.setV x b).mem = s.mem := rfl
@[simp] theorem State.setV_fb (s : State) (x : Reg) (b : Byte) : (s.setV x b).fb = s.fb := rfl
@[simp] theorem State.setV_key (s : State) (x : Reg) (b : Byte) : (s.setV x b).key = s.key := rfl
@[simp] theorem State.setV_redraw (s : State) (x : Reg) (b : Byte) : (s.setV x b).redraw = s.redraw := rfl
@[simp] theorem State.setV_status (s : State) (x : Reg) (b : Byte) : (s.setV x b).status = s.status := rfl
@[simp] theorem State.setV_phase (s : State) (x : Reg) (b : Byte) : (s.setV x b).phase = s.phase := rfl
@[simp] theorem State.setV_draws (s : State) (x : Reg) (b : Byte) : (s.setV x b).draws = s.draws := rfl

@[simp] theorem State.setRegBlock_i (s : State) (bs : List Byte) : (s.setRegBlock bs).i = s.i := rfl
@[simp] theorem State.setRegBlock_pc (s : State) (bs : List Byte) : (s.setRegBlock bs).pc = s.pc := rfl
@[simp] theorem State.setRegBlock_stack (s : State) (bs : List Byte) : (s.setRegBlock bs).stack = s.stack := rfl
@[simp] theorem State.setRegBlock_sp (s : State) (bs : List Byte) : (s.setRegBlock bs).sp = s.sp := rfl
@[simp] theorem State.setRegBlock_dt (s : State) (bs : List Byte) : (s.setRegBlock bs).dt = s.dt := rfl
@[simp] theorem State.setRegBlock_st (s : State) (bs : List Byte) : (s.setRegBlock bs).st = s.st := rfl
@[simp] theorem State.setRegBlock_mem (s : State) (bs : List Byte) : (s.setRegBlock bs).mem = s.mem := rfl
@[simp] theorem State.setRegBlock_fb (s : State) (bs : List Byte) : (s.setRegBlock bs).fb = s.fb := rfl
@[simp] theorem State.setRegBlock_key (s : State) (bs : List Byte) : (s.setRegBlock bs).key = s.key := rfl
@[simp] theorem State.setRegBlock_redraw (s : State) (bs : List Byte) : (s.setRegBlock bs).redraw = s.redraw := rfl
@[simp] theorem State.setRegBlock_status (s : State) (bs : List Byte) : (s.setRegBlock bs).status = s.status := rfl
@[simp] theorem State.setRegBlock_phase (s : State) (bs : List Byte) : (s.setRegBlock bs).phase = s.phase := rfl
@[simp] theorem State.setRegBlock_draws (s : State) (bs : List Byte) : (s.setRegBlock bs).draws = s.draws := rfl

@[simp] theorem State.setI_v (s : State) (w : Word) : (s.setI w).v = s.v := rfl
@[simp] theorem State.setI_i (s : State) (w : Word) : (s.setI w).i = w := rfl
@[simp] theorem State.setI_pc (s : State) (w : Word) : (s.setI w).pc = s.pc := rfl
@[simp] theorem State.setI_stack (s : State) (w : Word) : (s.setI w).stack = s.stack := rfl
@[simp] theorem State.setI_sp (s : State) (w : Word) : (s.setI w).sp = s.sp := rfl
@[simp] theorem State.setI_dt (s : State) (w : Word) : (s.setI w).dt = s.dt := rfl
@[simp] theorem State.setI_st (s : State) (w : Word) : (s.setI w).st = s.st := rfl
@[simp] theorem State.setI_mem (s : State) (w : Word) : (s.setI w).mem = s.mem := rfl
@[simp] theorem State.setI_fb (s : State) (w : Word) : (s.setI w).fb = s.fb := rfl
@[simp] theorem State.setI_key (s : State) (w : Word) : (s.setI w).key = s.key := rfl
@[simp] theorem State.setI_redraw (s : State) (w : Word) : (s.setI w).redraw = s.redraw := rfl
@[simp] theorem State.setI_status (s : State) (w : Word) : (s.setI w).status = s.status := rfl
@[simp] theorem State.setI_phase (s : State) (w : Word) : (s.setI w).phase = s.phase := rfl
@[simp] theorem State.setI_draws (s : State) (w : Word) : (s.setI w).draws = s.draws := rfl

@[simp] theorem State.setMem_v (s : State) (m : Memory) : (s.setMem m).v = s.v := rfl
@[simp] theorem State.setMem_i (s : State) (m : Memory) : (s.setMem m).i = s.i := rfl
@[simp] theorem State.setMem_pc (s : State) (m : Memory) : (s.setMem m).pc = s.pc := rfl
@[simp] theorem State.setMem_stack (s : State) (m : Memory) : (s.setMem m).stack = s.stack := rfl
@[simp] theorem State.setMem_sp (s : State) (m : Memory) : (s.setMem m).sp = s.sp := rfl
@[simp] theorem State.setMem_dt (s : State) (m : Memory) : (s.setMem m).dt = s.dt := rfl
@[simp] theorem State.setMem_st (s : State) (m : Memory) : (s.setMem m).st = s.st := rfl
@[simp] theorem State.setMem_mem (s : State) (m : Memory) : (s.setMem m).mem = m := rfl
@[simp] theorem State.setMem_fb (s : State) (m : Memory) : (s.setMem m).fb = s.fb := rfl
@[simp] theorem State.setMem_key (s : State) (m : Memory) : (s.setMem m).key = s.key := rfl
@[simp] theorem State.setMem_redraw (s : State) (m : Memory) : (s.setMem m).redraw = s.redraw := rfl
@[simp] theorem State.setMem_status (s : State) (m : Memory) : (s.setMem m).status = s.status := rfl
@[simp] theorem State.setMem_phase (s : State) (m : Memory) : (s.setMem m).phase = s.phase := rfl
@[simp] theorem State.setMem_draws (s : State) (m : Memory) : (s.setMem m).draws = s.draws := rfl

@[simp] theorem State.jumpTo_v (s : State) (w : Word) : (s.jumpTo w).v = s.v := rfl
@[simp] theorem State.jumpTo_i (s : State) (w : Word) : (s.jumpTo w).i = s.i := rfl
@[simp] theorem State.jumpTo_pc (s : State) (w : Word) : (s.jumpTo w).pc = w := rfl
@[simp] theorem State.jumpTo_stack (s : State) (w : Word) : (s.jumpTo w).stack = s.stack := rfl
@[simp] theorem State.jumpTo_sp (s : State) (w : Word) : (s.jumpTo w).sp = s.sp := rfl
@[simp] theorem State.jumpTo_dt (s : State) (w : Word) : (s.jumpTo w).dt = s.dt := rfl
@[simp] theorem State.jumpTo_st (s : State) (w : Word) : (s.jumpTo w).st = s.st := rfl
@[simp] theorem State.jumpTo_mem (s : State) (w : Word) : (s.jumpTo w).mem = s.mem := rfl
@[simp] theorem State.jumpTo_fb (s : State) (w : Word) : (s.jumpTo w).fb = s.fb := rfl
@[simp] theorem State.jumpTo_key (s : State) (w : Word) : (s.jumpTo w).key = s.key := rfl
@[simp] theorem State.jumpTo_redraw (s : State) (w : Word) : (s.jumpTo w).redraw = s.redraw := rfl
@[simp] theorem State.jumpTo_status (s : State) (w : Word) : (s.jumpTo w).status = s.status := rfl
@[simp] theorem State.jumpTo_phase (s : State) (w : Word) : (s.jumpTo w).phase = s.phase := rfl
@[simp] theorem State.jumpTo_draws (s : State) (w : Word) : (s.jumpTo w).draws = s.draws := rfl

@[simp] theorem State.nextDraw_v (s : State) : s.nextDraw.v = s.v := rfl
@[simp] theorem State.nextDraw_i (s : State) : s.nextDraw.i = s.i := rfl
@[simp] theorem State.nextDraw_pc (s : State) : s.nextDraw.pc = s.pc := rfl
@[simp] theorem State.nextDraw_stack (s : State) : s.nextDraw.stack = s.stack := rfl
@[simp] theorem State.nextDraw_sp (s : State) : s.nextDraw.sp = s.sp := rfl
@[simp] theorem State.nextDraw_dt (s : State) : s.nextDraw.dt = s.dt := rfl
@[simp] theorem State.nextDraw_st (s : State) : s.nextDraw.st = s.st := rfl
@[simp] theorem State.nextDraw_mem (s : State) : s.nextDraw.mem = s.mem := rfl
@[simp] theorem State.nextDraw_fb (s : State) : s.nextDraw.fb = s.fb := rfl
@[simp] theorem State.nextDraw_key (s : State) : s.nextDraw.key = s.key := rfl
@[simp] theorem State.nextDraw_redraw (s : State) : s.nextDraw.redraw = s.redraw := rfl
@[simp] theorem State.nextDraw_status (s : State) : s.nextDraw.status = s.status := rfl
@[simp] theorem State.nextDraw_phase (s : State) : s.nextDraw.phase = s.phase := rfl
@[simp] theorem State.nextDraw_draws (s : State) : s.nextDraw.draws = s.draws + 1 := rfl

@[simp] theorem State.beginExecute_v (s : State) : s.beginExecute.v = s.v := rfl
@[simp] theorem State.beginExecute_i (s : State) : s.beginExecute.i = s.i := rfl
@[simp] theorem State.beginExecute_pc (s : State) : s.beginExecute.pc = s.pc + 2 := rfl
@[simp] theorem State.beginExecute_stack (s : State) : s.beginExecute.stack = s.stack := rfl
@[simp] theorem State.beginExecute_sp (s : State) : s.beginExecute.sp = s.sp := rfl
@[simp] theorem State.beginExecute_dt (s : State) : s.beginExecute.dt = s.dt := rfl
@[simp] theorem State.beginExecute_st (s : State) : s.beginExecute.st = s.st := rfl
@[simp] theorem State.beginExecute_mem (s : State) : s.beginExecute.mem = s.mem := rfl
@[simp] theorem State.beginExecute_fb (s : State) : s.beginExecute.fb = s.fb := rfl
@[simp] theorem State.beginExecute_key (s : State) : s.beginExecute.key = s.key := rfl
@[simp] theorem State.beginExecute_redraw (s : State) : s.beginExecute.redraw = s.redraw := rfl
@[simp] theorem State.beginExecute_status (s : State) : s.beginExecute.status = s.status := rfl
@[simp] theorem State.beginExecute_phase (s : State) : s.beginExecute.phase = .stepping := rfl
@[simp] theorem State.beginExecute_draws (s : State) : s.beginExecute.draws = s.draws := rfl

@[simp] theorem State.takeFault_v (s : State) (r : Fault) : (s.takeFault r).v = s.v := rfl
@[simp] theorem State.takeFault_i (s : State) (r : Fault) : (s.takeFault r).i = s.i := rfl
@[simp] theorem State.takeFault_pc (s : State) (r : Fault) : (s.takeFault r).pc = s.pc := rfl
@[simp] theorem State.takeFault_stack (s : State) (r : Fault) : (s.takeFault r).stack = s.stack := rfl
@[simp] theorem State.takeFault_sp (s : State) (r : Fault) : (s.takeFault r).sp = s.sp := rfl
@[simp] theorem State.takeFault_dt (s : State) (r : Fault) : (s.takeFault r).dt = s.dt := rfl
@[simp] theorem State.takeFault_st (s : State) (r : Fault) : (s.takeFault r).st = s.st := rfl
@[simp] theorem State.takeFault_mem (s : State) (r : Fault) : (s.takeFault r).mem = s.mem := rfl
@[simp] theorem State.takeFault_fb (s : State) (r : Fault) : (s.takeFault r).fb = s.fb := rfl
@[simp] theorem State.takeFault_key (s : State) (r : Fault) : (s.takeFault r).key = s.key := rfl
@[simp] theorem State.takeFault_redraw (s : State) (r : Fault) : (s.takeFault r).redraw = s.redraw := rfl
@[simp] theorem State.takeFault_status (s : State) (r : Fault) : (s.takeFault r).status = .faulted r := rfl
@[simp] theorem State.takeFault_phase (s : State) (r : Fault) : (s.takeFault r).phase = .stepping := rfl
@[simp] theorem State.takeFault_draws (s : State) (r : Fault) : (s.takeFault r).draws = s.draws := rfl

@[simp] theorem State.keyWrite_v (s : State) (k : Fin 16) (p : Bool) : (s.keyWrite k p).v = s.v := rfl
@[simp] theorem State.keyWrite_i (s : State) (k : Fin 16) (p : Bool) : (s.keyWrite k p).i = s.i := rfl
@[simp] theorem State.keyWrite_pc (s : State) (k : Fin 16) (p : Bool) : (s.keyWrite k p).pc = s.pc := rfl
@[simp] theorem State.keyWrite_stack (s : State) (k : Fin 16) (p : Bool) : (s.keyWrite k p).stack = s.stack := rfl
@[simp] theorem State.keyWrite_sp (s : State) (k : Fin 16) (p : Bool) : (s.keyWrite k p).sp = s.sp := rfl
@[simp] theorem State.keyWrite_dt (s : State) (k : Fin 16) (p : Bool) : (s.keyWrite k p).dt = s.dt := rfl
@[simp] theorem State.keyWrite_st (s : State) (k : Fin 16) (p : Bool) : (s.keyWrite k p).st = s.st := rfl
@[simp] theorem State.keyWrite_mem (s : State) (k : Fin 16) (p : Bool) : (s.keyWrite k p).mem = s.mem := rfl
@[simp] theorem State.keyWrite_fb (s : State) (k : Fin 16) (p : Bool) : (s.keyWrite k p).fb = s.fb := rfl
@[simp] theorem State.keyWrite_key (s : State) (k : Fin 16) (p : Bool) : (s.keyWrite k p).key = s.key.set k.val (flagByte p) := rfl
@[simp] theorem State.keyWrite_redraw (s : State) (k : Fin 16) (p : Bool) : (s.keyWrite k p).redraw = s.redraw := rfl
@[simp] theorem State.keyWrite_status (s : State) (k : Fin 16) (p : Bool) : (s.keyWrite k p).status = s.status := rfl
@[simp] theorem State.keyWrite_phase (s : State) (k : Fin 16) (p : Bool) : (s.keyWrite k p).phase = s.phase := rfl
@[simp] theorem State.keyWrite_draws (s : State) (k : Fin 16) (p : Bool) : (s.keyWrite k p).draws = s.draws := rfl

@[simp] theorem State.redrawClear_v (s : State) : s.redrawClear.v = s.v := rfl
@[simp] theorem State.redrawClear_i (s : State) : s.redrawClear.i = s.i := rfl
@[simp] theorem State.redrawClear_pc (s : State) : s.redrawClear.pc = s.pc := rfl
@[simp] theorem State.redrawClear_stack (s : State) : s.redrawClear.stack = s.stack := rfl
@[simp] theorem State.redrawClear_sp (s : State) : s.redrawClear.sp = s.sp := rfl
@[simp] theorem State.redrawClear_dt (s : State) : s.redrawClear.dt = s.dt := rfl
@[simp] theorem State.redrawClear_st (s : State) : s.redrawClear.st = s.st := rfl
@[simp] theorem State.redrawClear_mem (s : State) : s.redrawClear.mem = s.mem := rfl
@[simp] theorem State.redrawClear_fb (s : State) : s.redrawClear.fb = s.fb := rfl
@[simp] theorem State.redrawClear_key (s : State) : s.redrawClear.key = s.key := rfl
@[simp] theorem State.redrawClear_redraw (s : State) : s.redrawClear.redraw = false := rfl
@[simp] theorem State.redrawClear_status (s : State) : s.redrawClear.status = s.status := rfl
@[simp] theorem State.redrawClear_phase (s : State) : s.redrawClear.phase = s.phase := rfl
@[simp] theorem State.redrawClear_draws (s : State) : s.redrawClear.draws = s.draws := rfl

@[simp] theorem State.skipIf_v (s : State) (c : Bool) : (s.skipIf c).v = s.v := by cases c <;> rfl
@[simp] theorem State.skipIf_i (s : State) (c : Bool) : (s.skipIf c).i = s.i := by cases c <;> rfl
@[simp] theorem State.skipIf_pc (s : State) (c : Bool) : (s.skipIf c).pc = if c then s.pc + 2 else s.pc := by cases c <;> rfl
@[simp] theorem State.skipIf_stack (s : State) (c : Bool) : (s.skipIf c).stack = s.stack := by cases c <;> rfl
@[simp] theorem State.skipIf_sp (s : State) (c : Bool) : (s.skipIf c).sp = s.sp := by cases c <;> rfl
@[simp] theorem State.skipIf_dt (s : State) (c : Bool) : (s.skipIf c).dt = s.dt := by cases c <;> rfl
@[simp] theorem State.skipIf_st (s : State) (c : Bool) : (s.skipIf c).st = s.st := by cases c <;> rfl
@[simp] theorem State.skipIf_mem (s : State) (c : Bool) : (s.skipIf c).mem = s.mem := by cases c <;> rfl
@[simp] theorem State.skipIf_fb (s : State) (c : Bool) : (s.skipIf c).fb = s.fb := by cases c <;> rfl
@[simp] theorem State.skipIf_key (s : State) (c : Bool) : (s.skipIf c).key = s.key := by cases c <;> rfl
@[simp] theorem State.skipIf_redraw (s : State) (c : Bool) : (s.skipIf c).redraw = s.redraw := by cases c <;> rfl
@[simp] theorem State.skipIf_status (s : State) (c : Bool) : (s.skipIf c).status = s.status := by cases c <;> rfl
@[simp] theorem State.skipIf_phase (s : State) (c : Bool) : (s.skipIf c).phase = s.phase := by cases c <;> rfl
@[simp] theorem State.skipIf_draws (s : State) (c : Bool) : (s.skipIf c).draws = s.draws := by cases c <;> rfl

@[simp] theorem State.decayDelay_v (s : State) : s.decayDelay.v = s.v := by unfold State.decayDelay; split <;> rfl
@[simp] theorem State.decayDelay_i (s : State) : s.decayDelay.i = s.i := by unfold State.decayDelay; split <;> rfl
@[simp] theorem State.decayDelay_pc (s : State) : s.decayDelay.pc = s.pc := by unfold State.decayDelay; split <;> rfl
@[simp] theorem State.decayDelay_stack (s : State) : s.decayDelay.stack = s.stack := by unfold State.decayDelay; split <;> rfl
@[simp] theorem State.decayDelay_sp (s : State) : s.decayDelay.sp = s.sp := by unfold State.decayDelay; split <;> rfl
@[simp] theorem State.decayDelay_dt (s : State) : s.decayDelay.dt = if s.dt = 0 then 0 else s.dt - 1 := by unfold State.decayDelay; split <;> simp_all
@[simp] theorem State.decayDelay_st (s : State) : s.decayDelay.st = s.st := by unfold State.decayDelay; split <;> rfl
@[simp] theorem State.decayDelay_mem (s : State) : s.decayDelay.mem = s.mem := by unfold State.decayDelay; split <;> rfl
@[simp] theorem State.decayDelay_fb (s : State) : s.decayDelay.fb = s.fb := by unfold State.decayDelay; split <;> rfl
@[simp] theorem State.decayDelay_key (s : State) : s.decayDelay.key = s.key := by unfold State.decayDelay; split <;> rfl
@[simp] theorem State.decayDelay_redraw (s : State) : s.decayDelay.redraw = s.redraw := by unfold State.decayDelay; split <;> rfl
@[simp] theorem State.decayDelay_status (s : State) : s.decayDelay.status = s.status := by unfold State.decayDelay; split <;> rfl
@[simp] theorem State.decayDelay_phase (s : State) : s.decayDelay.phase = s.phase := by unfold State.decayDelay; split <;> rfl
@[simp] theorem State.decayDelay_draws (s : State) : s.decayDelay.draws = s.draws := by unfold State.decayDelay; split <;> rfl

@[simp] theorem State.soundTick_v (s : State) : s.soundTick.v = s.v := by unfold State.soundTick; split <;> rfl
@[simp] theorem State.soundTick_i (s : State) : s.soundTick.i = s.i := by unfold State.soundTick; split <;> rfl
@[simp] theorem State.soundTick_pc (s : State) : s.soundTick.pc = s.pc := by unfold State.soundTick; split <;> rfl
@[simp] theorem State.soundTick_stack (s : State) : s.soundTick.stack = s.stack := by unfold State.soundTick; split <;> rfl
@[simp] theorem State.soundTick_sp (s : State) : s.soundTick.sp = s.sp := by unfold State.soundTick; split <;> rfl
@[simp] theorem State.soundTick_dt (s : State) : s.soundTick.dt = s.dt := by unfold State.soundTick; split <;> rfl
@[simp] theorem State.soundTick_st (s : State) : s.soundTick.st = if s.st = 0 then 0 else s.st - 1 := by unfold State.soundTick; split <;> simp_all
@[simp] theorem State.soundTick_mem (s : State) : s.soundTick.mem = s.mem := by unfold State.soundTick; split <;> rfl
@[simp] theorem State.soundTick_fb (s : State) : s.soundTick.fb = s.fb := by unfold State.soundTick; split <;> rfl
@[simp] theorem State.soundTick_key (s : State) : s.soundTick.key = s.key := by unfold State.soundTick; split <;> rfl
@[simp] theorem State.soundTick_redraw (s : State) : s.soundTick.redraw = s.redraw := by unfold State.soundTick; split <;> rfl
@[simp] theorem State.soundTick_status (s : State) : s.soundTick.status = s.status := by unfold State.soundTick; split <;> rfl
@[simp] theorem State.soundTick_phase (s : State) : s.soundTick.phase = s.phase := by unfold State.soundTick; split <;> rfl
@[simp] theorem State.soundTick_draws (s : State) : s.soundTick.draws = s.draws := by unfold State.soundTick; split <;> rfl

end Sys2Proof.Machine
end

