-- ==== Sys2Proof/Laws/Registers.lean ====
section
/-! SUPPORT. Laws/Registers.lean: what the register operations and the VF rules do to a register (00_scope.md R8,
42_alu.md R140, 45_index_memory.md R215, R216). -/

namespace Sys2Proof.Machine

theorem State.getV_congr {s t : State} (h : t.v = s.v) (r : Reg) : t.getV r = s.getV r := by simp [State.getV, h]

@[simp] theorem State.getV_setI (s : State) (w : Word) (r : Reg) : (s.setI w).getV r = s.getV r := rfl
@[simp] theorem State.getV_setMem (s : State) (m : Memory) (r : Reg) : (s.setMem m).getV r = s.getV r := rfl
@[simp] theorem State.getV_jumpTo (s : State) (w : Word) (r : Reg) : (s.jumpTo w).getV r = s.getV r := rfl
@[simp] theorem State.getV_nextDraw (s : State) (r : Reg) : s.nextDraw.getV r = s.getV r := rfl
@[simp] theorem State.getV_beginExecute (s : State) (r : Reg) : s.beginExecute.getV r = s.getV r := rfl
@[simp] theorem State.getV_skipIf (s : State) (c : Bool) (r : Reg) : (s.skipIf c).getV r = s.getV r := by cases c <;> rfl
@[simp] theorem State.getV_decayDelay (s : State) (r : Reg) : s.decayDelay.getV r = s.getV r :=
  State.getV_congr (by simp) r

/-- A read of a register after a write to a register. -/
@[simp] theorem State.getV_setV (s : State) (x r : Reg) (b : Byte) :
    (s.setV x b).getV r = if r = x then b else s.getV r := by
  simp only [State.getV, State.setV, Vector.getElem_set, Fin.ext_iff, eq_comm]

/-- What a flag-writing ALU instruction leaves in a register (R140, R147-R151). -/
theorem State.getV_writeFlagged (s : State) (x r : Reg) (named : Bool) (result flag : Byte) :
    (s.writeFlagged x named result flag).getV r =
      if r = vf then (if named then s.drawAnyF else flag)
      else if r = x then (if named then s.drawAnyX else result)
      else s.getV r := by
  cases named
  · simp [State.writeFlagged]
  · by_cases hx : x = vf
    · subst hx; by_cases hr : r = vf <;> simp [State.writeFlagged, State.vfOperand, State.drawAnyF, hr]
    · simp [State.writeFlagged, State.vfOperand, State.drawAnyF, State.drawAnyX, hx]

/-- A flag-writing ALU instruction writes registers and the draw count, nothing else. -/
theorem State.writeFlagged_frame (s : State) (x : Reg) (named : Bool) (result flag : Byte) :
    ∃ vs, s.writeFlagged x named result flag =
      { s with v := vs, draws := if named then s.draws + 1 else s.draws } := by
  cases named
  · exact ⟨_, rfl⟩
  · by_cases hx : x = vf
    · exact ⟨_, by simp only [State.writeFlagged, State.vfOperand, hx, ne_eq, not_true_eq_false, if_false, if_true]; rfl⟩
    · exact ⟨_, by simp only [State.writeFlagged, State.vfOperand, hx, ne_eq, not_false_eq_true, if_true]; rfl⟩

/-- The register load (R216). -/
@[simp] theorem State.getV_setRegBlock (s : State) (bytes : List Byte) (r : Reg) :
    (s.setRegBlock bytes).getV r = bytes.getD r.val (s.getV r) := by
  simp [State.getV, State.setRegBlock]

@[simp] theorem State.regBlock_length (s : State) (x : Reg) : (s.regBlock x).length = x.val + 1 := by
  have := x.isLt
  simp [State.regBlock]

/-- The register dump's byte `k` is `V[k]` (R215). -/
theorem State.regBlock_getD (s : State) (x r : Reg) (h : r ≤ x) : (s.regBlock x).getD r.val 0 = s.getV r := by
  have hr : r.val < x.val + 1 := Nat.lt_succ_of_le h
  simp [State.regBlock, State.getV, hr]

/-- The digits of the BCD store, as naturals (R214). -/
theorem bcdDigits_toNat (b : Byte) : (bcdDigits b).map BitVec.toNat = [b.toNat / 100, b.toNat / 10 % 10, b.toNat % 10] := by
  simp [bcdDigits]

/-- `FX0A`'s scan finds nothing exactly when no key is pressed (R193). -/
theorem State.scanKeys_spec (s : State) :
    (s.scanKeys = none ∧ ∀ k, s.keyPressed k = false) ∨
    (∃ k, s.scanKeys = some k ∧ s.keyPressed k = true ∧ ∀ j, k < j → s.keyPressed j = false) := by
  have key : ∀ (l : List (Fin 16)) (found : Option (Fin 16)), l.Pairwise (· < ·) →
      let r := l.foldl (fun found k => if s.keyPressed k then some k else found) found
      (r = found ∧ ∀ k ∈ l, s.keyPressed k = false) ∨
      (∃ k ∈ l, r = some k ∧ s.keyPressed k = true ∧ ∀ j ∈ l, k < j → s.keyPressed j = false) := by
    intro l
    induction l with
    | nil => intro found _; exact .inl ⟨rfl, by simp⟩
    | cons a l ih =>
      intro found hl
      obtain ⟨ha, hl⟩ := List.pairwise_cons.1 hl
      obtain ⟨h1, h2⟩ | ⟨k, hk, h1, h2, h3⟩ := ih (if s.keyPressed a then some a else found) hl
      · by_cases hp : s.keyPressed a
        · refine .inr ⟨a, by simp, by simpa [hp] using h1, hp, ?_⟩
          intro j hj hlt
          rcases List.mem_cons.1 hj with rfl | hj
          · exact absurd hlt (lt_irrefl _)
          · exact h2 j hj
        · refine .inl ⟨by simpa [hp] using h1, ?_⟩
          intro j hj
          rcases List.mem_cons.1 hj with rfl | hj
          · simpa using hp
          · exact h2 j hj
      · refine .inr ⟨k, List.mem_cons_of_mem _ hk, by simpa using h1, h2, ?_⟩
        intro j hj hlt
        rcases List.mem_cons.1 hj with rfl | hj
        · exact absurd (ha k hk) (not_lt_of_gt hlt)
        · exact h3 j hj hlt
  have all : ∀ k : Fin 16, k ∈ keyIndices := by decide
  obtain ⟨h1, h2⟩ | ⟨k, _, h1, h2, h3⟩ := key keyIndices none (by decide)
  · exact .inl ⟨h1, fun k => h2 k (all k)⟩
  · exact .inr ⟨k, h1, h2, fun j hj => h3 j (all j) hj⟩

end Sys2Proof.Machine
end

