-- ==== Sys2Proof/Laws/Display.lean ====
section
/-! SUPPORT. Laws/Display.lean: what drawing a sprite does to every pixel and to the collision (43_display.md R171-R174). -/

namespace Sys2Proof.Machine

theorem pixelIndex_lt {x y : Nat} (hx : x < 64) (hy : y < 32) : pixelIndex x y < 2048 := by unfold pixelIndex; omega

theorem pixelIndex_inj {x y x' y' : Nat} (hx : x < 64) (hx' : x' < 64) :
    pixelIndex x y = pixelIndex x' y' ↔ x = x' ∧ y = y' := by unfold pixelIndex; omega

/-- A flip changes its own cell and no other. -/
theorem fbCell_fbFlip (fb : BitVec 2048) {k : Nat} (hk : k < 2048) (j : Nat) :
    fbCell (fbFlip fb k) j = (fbCell fb j ^^ decide (k = j)) := by
  simp [fbCell, fbFlip, hk]

/-- Whether one of the columns `cs` of a row drawn at `(x0, y0)` sets pixel `(px, py)`. -/
def colsCover (x0 y0 : Nat) (row : Byte) (cs : List Nat) (px py : Nat) : Bool :=
  decide (py = y0 ∧ x0 ≤ px ∧ px - x0 ∈ cs) && spriteBit row (px - x0)

/-- What drawing does, for a set of covered pixels: each covered pixel is flipped, and there is a collision exactly when a
covered pixel was set. -/
def Draws (cover : Nat → Nat → Bool) (acc acc' : BitVec 2048 × Bool) : Prop :=
  (∀ px py, px < 64 → py < 32 →
    fbCell acc'.1 (pixelIndex px py) = (fbCell acc.1 (pixelIndex px py) ^^ cover px py)) ∧
  (acc'.2 = true ↔ acc.2 = true ∨
    ∃ px py, px < 64 ∧ py < 32 ∧ cover px py = true ∧ fbCell acc.1 (pixelIndex px py) = true)

/-- Drawing two disjoint sets of pixels, one after the other, is drawing both. -/
theorem Draws.trans {c1 c2 c : Nat → Nat → Bool} {a1 a2 a3 : BitVec 2048 × Bool} (h1 : Draws c1 a1 a2) (h2 : Draws c2 a2 a3)
    (hc : ∀ px py, c px py = (c1 px py || c2 px py)) (hd : ∀ px py, c1 px py = true → c2 px py = false) :
    Draws c a1 a3 := by
  refine ⟨fun px py hx hy => ?_, ?_⟩
  · rw [h2.1 px py hx hy, h1.1 px py hx hy, hc]
    have := hd px py
    cases hc1 : c1 px py <;> cases hc2 : c2 px py <;> simp_all
  · rw [h2.2, h1.2]
    constructor
    · rintro ((h | ⟨px, py, hx, hy, h, hf⟩) | ⟨px, py, hx, hy, h, hf⟩)
      · exact .inl h
      · exact .inr ⟨px, py, hx, hy, by rw [hc, h]; rfl, hf⟩
      · refine .inr ⟨px, py, hx, hy, by rw [hc, h]; simp, ?_⟩
        have hn : c1 px py = false := by
          by_contra hne
          rw [hd px py (by simpa using hne)] at h; cases h
        rw [h1.1 px py hx hy, hn] at hf
        simpa using hf
    · rintro (h | ⟨px, py, hx, hy, h, hf⟩)
      · exact .inl (.inl h)
      · rw [hc] at h
        cases h1' : c1 px py with
        | true => exact .inl (.inr ⟨px, py, hx, hy, h1', hf⟩)
        | false =>
          refine .inr ⟨px, py, hx, hy, by simpa [h1'] using h, ?_⟩
          rw [h1.1 px py hx hy, h1', hf]; rfl

theorem Draws.refl (acc : BitVec 2048 × Bool) : Draws (fun _ _ => false) acc acc := ⟨by simp, by simp⟩

/-- One column of one row. -/
theorem drawPixel_draws (x0 y0 : Nat) (row : Byte) (acc : BitVec 2048 × Bool) (c : Nat) :
    Draws (colsCover x0 y0 row [c]) acc (drawPixel x0 y0 row acc c) := by
  unfold drawPixel
  split
  · rename_i h
    obtain ⟨hb, hx0, hy0⟩ := h
    refine ⟨fun px py hx hy => ?_, ?_⟩
    · rw [fbCell_fbFlip _ (pixelIndex_lt hx0 hy0)]
      congr 1
      rw [Bool.eq_iff_iff, decide_eq_true_eq, pixelIndex_inj hx0 hx]
      simp only [colsCover, List.mem_singleton, Bool.and_eq_true, decide_eq_true_eq]
      constructor
      · rintro ⟨rfl, rfl⟩; exact ⟨⟨rfl, by omega, by omega⟩, by simpa using hb⟩
      · rintro ⟨⟨rfl, h1, h2⟩, -⟩; exact ⟨by omega, rfl⟩
    · simp only [Bool.or_eq_true]
      refine or_congr Iff.rfl ⟨fun h => ⟨x0 + c, y0, hx0, hy0, by simp [colsCover, hb], h⟩, ?_⟩
      rintro ⟨px, py, hx, hy, h, hf⟩
      simp only [colsCover, List.mem_singleton, Bool.and_eq_true, decide_eq_true_eq] at h
      obtain ⟨⟨rfl, h1, h2⟩, -⟩ := h
      rwa [show x0 + c = px by omega]
  · rename_i h
    have none : ∀ px py, px < 64 → py < 32 → colsCover x0 y0 row [c] px py = false := by
      intro px py hx hy
      by_contra hne
      simp only [colsCover, List.mem_singleton, Bool.not_eq_false, Bool.and_eq_true, decide_eq_true_eq] at hne
      obtain ⟨⟨rfl, h1, rfl⟩, hb⟩ := hne
      exact h ⟨hb, by omega, hy⟩
    refine ⟨fun px py hx hy => by simp [none px py hx hy], ?_⟩
    constructor
    · exact .inl
    · rintro (h | ⟨px, py, hx, hy, h, -⟩)
      · exact h
      · rw [none px py hx hy] at h; cases h

/-- Some columns of one row. -/
theorem foldl_drawPixel_draws (x0 y0 : Nat) (row : Byte) (cs : List Nat) (hcs : cs.Nodup) (acc : BitVec 2048 × Bool) :
    Draws (colsCover x0 y0 row cs) acc (cs.foldl (drawPixel x0 y0 row) acc) := by
  induction cs generalizing acc with
  | nil =>
    have e : colsCover x0 y0 row [] = fun _ _ => false := by funext px py; simp [colsCover]
    rw [e]; exact Draws.refl acc
  | cons c cs ih =>
    obtain ⟨hc, hcs⟩ := List.nodup_cons.1 hcs
    refine (drawPixel_draws x0 y0 row acc c).trans (ih hcs _) (fun px py => ?_) (fun px py h => ?_)
    · rw [Bool.eq_iff_iff]
      simp only [colsCover, List.mem_cons, List.not_mem_nil, or_false, Bool.or_eq_true, Bool.and_eq_true,
        decide_eq_true_eq]
      tauto
    · simp only [colsCover, List.mem_singleton, Bool.and_eq_true, decide_eq_true_eq] at h
      have : px - x0 ∉ cs := h.1.2.2 ▸ hc
      simp [colsCover, this]

/-- The pixels a whole row covers. -/
theorem drawRow_draws (x0 y0 : Nat) (row : Byte) (acc : BitVec 2048 × Bool) :
    Draws (spriteCovers x0 y0 1 fun _ => row) acc (drawRow x0 y0 row acc) := by
  have h := foldl_drawPixel_draws x0 y0 row [0, 1, 2, 3, 4, 5, 6, 7] (by decide) acc
  have e : colsCover x0 y0 row [0, 1, 2, 3, 4, 5, 6, 7] = spriteCovers x0 y0 1 fun _ => row := by
    funext px py
    simp only [colsCover, spriteCovers]
    congr 1
    rw [decide_eq_decide]
    simp only [List.mem_cons, List.not_mem_nil, or_false]
    omega
  rwa [e] at h

/-- Drawing the rows of a sprite flips every pixel the sprite covers inside the framebuffer, and there is a collision
exactly when one of them was set. -/
theorem drawRows_draws (x0 y0 : Nat) (rows : List Byte) (acc : BitVec 2048 × Bool) :
    Draws (spriteCovers x0 y0 rows.length fun r => rows.getD r 0) acc (drawRows x0 y0 rows acc) := by
  induction rows generalizing y0 acc with
  | nil =>
    have e : (spriteCovers x0 y0 0 fun r => ([] : List Byte).getD r 0) = fun _ _ => false := by
      funext px py
      simp only [spriteCovers, Bool.and_eq_false_imp, decide_eq_true_eq]
      omega
    rw [List.length_nil, e]
    exact Draws.refl acc
  | cons row rows ih =>
    refine (drawRow_draws x0 y0 row acc).trans (ih (y0 + 1) _) (fun px py => ?_) (fun px py h => ?_)
    · simp only [spriteCovers, List.length_cons]
      by_cases hy : py = y0
      · subst hy; simp
      · by_cases hlt : y0 + 1 ≤ py
        · have h2 : py - y0 = (py - (y0 + 1)) + 1 := by omega
          rw [h2, List.getD_cons_succ]
          have h3 : ¬ (py < y0 + 1) := by omega
          have h4 : y0 ≤ py := by omega
          have h5 : (py < y0 + (rows.length + 1)) ↔ (py < y0 + 1 + rows.length) := by omega
          simp only [h3, hlt, h4, h5, and_false, decide_false, Bool.false_and, Bool.false_or]
        · have h3 : ¬ y0 ≤ py := by omega
          simp [h3, hlt]
    · simp only [spriteCovers, Bool.and_eq_true, decide_eq_true_eq] at h
      simp only [spriteCovers, Bool.and_eq_false_imp, decide_eq_true_eq]
      omega

/-- The framebuffer after a sprite. -/
theorem State.drawSprite_fb (s : State) (x0 y0 : Nat) (rows : List Byte) :
    (s.drawSprite x0 y0 rows).fb = (drawRows x0 y0 rows (s.fb, false)).1 := rfl

/-- A register after a sprite: `VF` holds the collision (R174). -/
theorem State.getV_drawSprite (s : State) (x0 y0 : Nat) (rows : List Byte) (r : Reg) :
    (s.drawSprite x0 y0 rows).getV r =
      if r = vf then flagByte (drawRows x0 y0 rows (s.fb, false)).2 else s.getV r := by
  simp only [State.drawSprite, State.getV_setV]
  rfl

/-- Two framebuffers with the same pixels are equal. -/
theorem fb_ext {a b : BitVec 2048}
    (h : ∀ px py, px < 64 → py < 32 → fbCell a (pixelIndex px py) = fbCell b (pixelIndex px py)) : a = b := by
  refine BitVec.eq_of_getLsbD_eq fun k hk => ?_
  have := h (k % 64) (k / 64) (by omega) (by omega)
  simpa [pixelIndex, fbCell, show k / 64 * 64 + k % 64 = k by omega] using this

end Sys2Proof.Machine
end

