-- ==== Sys2Proof/Laws/Step.lean ====
section
/-! SUPPORT. Laws/Step.lean: everything a completed step does, and everything the fault and stack operations can do
(40_step.md R100-R107, 41_control_flow.md R120, R122). -/

namespace Sys2Proof.Machine

/-- A step that is admitted runs the cycle. -/
theorem step_of_admitted {s : State} (h : s.admitted) : step s = cycle s := by
  obtain ⟨h1, h2 | h2⟩ := h <;> simp [step, h1, h2]

/-- A step that completes was admitted, fetched a word, decoded it, executed it to a next state, and decayed the delay
timer. -/
theorem step_next_inv {s t : State} (h : step s = .next t) :
    s.admitted ∧ ∃ w i u, fetch s.mem s.pc = .ok w ∧ decode w = .insn i ∧ exec i s.beginExecute = .next u ∧
      t = u.decayDelay := by
  have ha : s.admitted := by
    unfold step at h
    split at h
    · cases h
    · rename_i h1
      split at h
      · cases h
      · cases h
      · exact ⟨h1, .inl ‹_›⟩
      · exact ⟨h1, .inr ‹_›⟩
  refine ⟨ha, ?_⟩
  rw [step_of_admitted ha] at h
  unfold cycle at h
  split at h
  · cases h
  · rename_i w hw
    unfold runWord at h
    split at h
    · cases h
    · rename_i i hi
      cases he : exec i s.beginExecute with
      | next u => rw [he] at h; cases h; exact ⟨w, i, u, hw, hi, he, rfl⟩
      | fault r => rw [he] at h; cases h
      | refused r => rw [he] at h; cases h

/-- A step from a state that is not admitted is refused. -/
theorem step_refused_of_not_admitted {s : State} (h : ¬ s.admitted) : ∃ r, step s = .refused r := by
  unfold step
  unfold State.admitted at h
  split
  · exact ⟨_, rfl⟩
  · split
    · exact ⟨_, rfl⟩
    · exact ⟨_, rfl⟩
    · exact absurd ⟨‹_›, .inl ‹_›⟩ h
    · exact absurd ⟨‹_›, .inr ‹_›⟩ h

/-- A fetched pair of bytes lies inside memory (R101). -/
theorem fetch_ok {m : Memory} {pc0 w : Word} (h : fetch m pc0 = .ok w) :
    pc0.toNat + 1 < Config.memSize ∧ w = wordOfBytes (m.read pc0.toNat) (m.read (pc0.toNat + 1)) := by
  rw [fetch_eq] at h
  split at h
  · cases h; exact ⟨‹_›, rfl⟩
  · cases h

/-- In a live run an action is `actLive`'s. -/
theorem Session.act_of_live {r : Session} (h : r.ended = false) (a : HostAction) : r.act a = r.actLive a := by
  simp [Session.act, h]

/-- After the end of a run Reset starts a new one and every other action is refused (R260, R265). -/
theorem Session.act_of_ended {r : Session} (h : r.ended = true) (a : HostAction) :
    r.act a = if a = .reset then .next r.reset else .refused .runEnded := by
  cases a <;> simp [Session.act, Session.actEnded, h]

/-- The push, in one equation for each outcome (R122). -/
theorem State.push_eq (s : State) (w : Word) :
    (s.sp.val < 16 → ∃ t, s.push w = some t ∧ t.sp.val = s.sp.val + 1 ∧
      (∀ k : Fin 16, t.stack[k.val] = if k.val = s.sp.val then w else s.stack[k.val]) ∧
      t = { s with stack := t.stack, sp := t.sp }) ∧
    (s.sp.val = 16 → s.push w = none) := by
  refine ⟨fun h => ?_, fun h => by simp [State.push, h]⟩
  refine ⟨_, by simp only [State.push, h, dite_true]; rfl, rfl, fun k => ?_, rfl⟩
  simp only [Vector.getElem_set, eq_comm]

/-- The pop, in one equation for each outcome (R120). -/
theorem State.pop_eq (s : State) :
    (0 < s.sp.val → ∃ w t, s.pop = some (w, t) ∧ s.stack[s.sp.val - 1]? = some w ∧ t.sp.val = s.sp.val - 1 ∧
      t = { s with sp := t.sp }) ∧
    (s.sp.val = 0 → s.pop = none) := by
  refine ⟨fun h => ?_, fun h => by simp [State.pop, h]⟩
  refine ⟨_, _, by simp only [State.pop, h, dite_true]; rfl, Vector.getElem?_eq_getElem _, rfl, rfl⟩

/-- A store of a byte that exists is the write. -/
theorem storeIfMapped_eq {a : Nat} (h : a < Config.memSize) (m : Memory) (b : Byte) :
    storeIfMapped m a b = m.write a b := by simp [storeIfMapped, memWrite, h]

/-- The very next step after `withFetchWord` is admitted and fetches the word laid out. -/
theorem withFetchWord_fetch (s : State) (nbits w : Nat) (h : s.pc.toNat + 1 < Config.memSize) :
    (s.withFetchWord nbits w).admitted ∧
      fetch (s.withFetchWord nbits w).mem (s.withFetchWord nbits w).pc = .ok (BitVec.ofNat 16 (w % 2 ^ nbits)) := by
  refine ⟨⟨rfl, ?_⟩, ?_⟩
  · cases hp : s.phase <;> simp [State.withFetchWord, hp]
  · rw [fetch_eq, if_pos (by exact h)]
    simp only [State.withFetchWord, storeIfMapped_eq h, storeIfMapped_eq (Nat.lt_of_succ_lt h), Memory.read_write_self]
    rw [Memory.read_write_ne _ _ (by omega), Memory.read_write_self, wordOfBytes_bytes]

end Sys2Proof.Machine
end

