-- ==== Sys2Proof/Laws/Exec.lean ====
section
/-! SUPPORT. Laws/Exec.lean: what execution can do to memory, PC and the stack, once for all instructions (10_state.md
R47, 40_step.md R104). -/

namespace Sys2Proof.Machine

/-- Execution reaches the state by updates that keep memory, or by one block store at `I` (R60, R214, R215). -/
theorem exec_mem {i : Instr} {s t : State} (h : exec i s = .next t) :
    t.mem = s.mem ∨ ∃ bs, writeBlock s.mem s.i.toNat bs = .ok t.mem := by
  have flagged : ∀ (x : Reg) (named : Bool) (result flag : Byte),
      (.next (s.writeFlagged x named result flag) : Host.Outcome State Fault Refusal) = .next t → t.mem = s.mem := by
    intro x named result flag h
    obtain ⟨vs, hv⟩ := State.writeFlagged_frame s x named result flag
    rw [hv] at h; cases h; rfl
  cases i <;> simp only [exec] at h
  case addReg => exact .inl (flagged _ _ _ _ h)
  case subReg => exact .inl (flagged _ _ _ _ h)
  case subnReg => exact .inl (flagged _ _ _ _ h)
  case shr => exact .inl (flagged _ _ _ _ h)
  case shl => exact .inl (flagged _ _ _ _ h)
  case ret =>
    left
    unfold execRet State.pop at h
    by_cases h0 : 0 < s.sp.val
    · rw [dif_pos h0] at h; cases h; rfl
    · rw [dif_neg h0] at h; cases h
  case call =>
    left
    unfold execCall State.push at h
    by_cases h0 : s.sp.val < 16
    · rw [dif_pos h0] at h; cases h; rfl
    · rw [dif_neg h0] at h; cases h
  case drw => unfold execDrw raise at h; left; split at h <;> cases h; rfl
  case skp => unfold execSkp raise at h; left; split at h <;> cases h; simp
  case sknp => unfold execSknp raise at h; left; split at h <;> cases h; simp
  case ldVxKey => unfold execLdVxKey at h; left; split at h <;> cases h <;> rfl
  case addIVx => simp only [execAddIVx, raise] at h; left; split at h <;> cases h; rfl
  case ldBVx =>
    unfold execLdBVx raise at h
    cases hw : writeBlock s.mem s.i.toNat (bcdDigits (s.getV _)) with
    | error a => rw [hw] at h; cases h
    | ok m => rw [hw] at h; cases h; exact .inr ⟨_, hw⟩
  case dump =>
    unfold execDump raise at h
    cases hw : writeBlock s.mem s.i.toNat (s.regBlock _) with
    | error a => rw [hw] at h; cases h
    | ok m => rw [hw] at h; cases h; exact .inr ⟨_, hw⟩
  case load => unfold execLoad raise at h; left; split at h <;> cases h; rfl
  all_goals left; cases h; first | rfl | exact State.skipIf_mem _ _

/-- Where execution can leave `PC` (R47, R128): where it was, a skip ahead, the wait-for-key roll back, an absolute
target, a target with offset, or a popped stack cell. -/
theorem exec_pc {i : Instr} {s t : State} (h : exec i s = .next t) :
    t.pc = s.pc ∨ t.pc = s.pc + 2 ∨ t.pc = s.pc - 2 ∨ (∃ nnn : Addr12, t.pc = nnn.zeroExtend 16) ∨
    (∃ (nnn : Addr12) (b : Byte), t.pc = nnn.zeroExtend 16 + b.zeroExtend 16) ∨
    (∃ k : Fin 16, t.pc = s.stack[k.val]) := by
  have skip : ∀ c, (s.skipIf c).pc = s.pc ∨ (s.skipIf c).pc = s.pc + 2 := by
    intro c; cases c
    · exact .inl rfl
    · exact .inr rfl
  have flagged : ∀ (x : Reg) (named : Bool) (result flag : Byte),
      (.next (s.writeFlagged x named result flag) : Host.Outcome State Fault Refusal) = .next t → t.pc = s.pc := by
    intro x named result flag h
    obtain ⟨vs, hv⟩ := State.writeFlagged_frame s x named result flag
    rw [hv] at h; cases h; rfl
  cases i <;> simp only [exec] at h
  case addReg => exact .inl (flagged _ _ _ _ h)
  case subReg => exact .inl (flagged _ _ _ _ h)
  case subnReg => exact .inl (flagged _ _ _ _ h)
  case shr => exact .inl (flagged _ _ _ _ h)
  case shl => exact .inl (flagged _ _ _ _ h)
  case ret =>
    right; right; right; right; right
    unfold execRet State.pop at h
    by_cases h0 : 0 < s.sp.val
    · rw [dif_pos h0] at h; cases h; exact ⟨⟨s.sp.val - 1, by omega⟩, rfl⟩
    · rw [dif_neg h0] at h; cases h
  case call =>
    unfold execCall State.push at h
    by_cases h0 : s.sp.val < 16
    · rw [dif_pos h0] at h; cases h; exact .inr (.inr (.inr (.inl ⟨_, rfl⟩)))
    · rw [dif_neg h0] at h; cases h
  case jp => cases h; exact .inr (.inr (.inr (.inl ⟨_, rfl⟩)))
  case jpV0 => cases h; exact .inr (.inr (.inr (.inr (.inl ⟨_, _, rfl⟩))))
  case seImm => cases h; exact (skip _).imp_right .inl
  case sneImm => cases h; exact (skip _).imp_right .inl
  case seReg => cases h; exact (skip _).imp_right .inl
  case sneReg => cases h; exact (skip _).imp_right .inl
  case drw => unfold execDrw raise at h; left; split at h <;> cases h; rfl
  case skp => unfold execSkp raise at h; split at h <;> cases h; exact (skip _).imp_right .inl
  case sknp => unfold execSknp raise at h; split at h <;> cases h; exact (skip _).imp_right .inl
  case ldVxKey =>
    unfold execLdVxKey at h
    split at h <;> cases h
    · exact .inl rfl
    · exact .inr (.inr (.inl rfl))
  case addIVx => simp only [execAddIVx, raise] at h; left; split at h <;> cases h; rfl
  case ldBVx => unfold execLdBVx raise at h; left; split at h <;> cases h; rfl
  case dump => unfold execDump raise at h; left; split at h <;> cases h; rfl
  case load => unfold execLoad raise at h; left; split at h <;> cases h; rfl
  all_goals left; cases h; rfl

/-- What execution can do to the stack cells: nothing, or store `PC` in one of them (R34). -/
theorem exec_stack {i : Instr} {s t : State} (h : exec i s = .next t) :
    t.stack = s.stack ∨ ∃ k : Fin 16, ∀ j : Fin 16, t.stack[j.val] = if j = k then s.pc else s.stack[j.val] := by
  have flagged : ∀ (x : Reg) (named : Bool) (result flag : Byte),
      (.next (s.writeFlagged x named result flag) : Host.Outcome State Fault Refusal) = .next t → t.stack = s.stack := by
    intro x named result flag h
    obtain ⟨vs, hv⟩ := State.writeFlagged_frame s x named result flag
    rw [hv] at h; cases h; rfl
  cases i <;> simp only [exec] at h
  case addReg => exact .inl (flagged _ _ _ _ h)
  case subReg => exact .inl (flagged _ _ _ _ h)
  case subnReg => exact .inl (flagged _ _ _ _ h)
  case shr => exact .inl (flagged _ _ _ _ h)
  case shl => exact .inl (flagged _ _ _ _ h)
  case ret =>
    left
    unfold execRet State.pop at h
    by_cases h0 : 0 < s.sp.val
    · rw [dif_pos h0] at h; cases h; rfl
    · rw [dif_neg h0] at h; cases h
  case call =>
    right
    by_cases h0 : s.sp.val < 16
    · obtain ⟨u, h1, -, h3, -⟩ := (State.push_eq s s.pc).1 h0
      simp only [execCall, h1] at h
      cases h
      refine ⟨⟨s.sp.val, h0⟩, fun j => ?_⟩
      simp only [State.jumpTo_stack, h3 j, Fin.ext_iff]
    · rw [execCall, (State.push_eq s s.pc).2 (by omega)] at h; cases h
  case drw => unfold execDrw raise at h; left; split at h <;> cases h; rfl
  case skp => unfold execSkp raise at h; left; split at h <;> cases h; simp
  case sknp => unfold execSknp raise at h; left; split at h <;> cases h; simp
  case ldVxKey => unfold execLdVxKey at h; left; split at h <;> cases h <;> rfl
  case addIVx => simp only [execAddIVx, raise] at h; left; split at h <;> cases h; rfl
  case ldBVx => unfold execLdBVx raise at h; left; split at h <;> cases h; rfl
  case dump => unfold execDump raise at h; left; split at h <;> cases h; rfl
  case load => unfold execLoad raise at h; left; split at h <;> cases h; rfl
  all_goals left; cases h; first | rfl | exact State.skipIf_stack _ _

end Sys2Proof.Machine
end

