-- ==== Sys2Proof/Laws/PerInstr.lean ====
section
/-! SUPPORT. Laws/PerInstr.lean: per instruction, the encoded word matches the mask and value of the instruction's row of
the opcode table (30_encoding.md R88). -/

namespace Sys2Proof.Laws.EncodesRow

/-- The encoded word of an instruction matches the instruction's row of R88. -/
def Statement (i : Instr) : Prop :=
  ∃ row, opcodeTable[i.rowIndex]? = some row ∧ row.matches (encode i) = true

/-- The bits of a word under a mask, from the bits of both. -/
theorem and_eq_of_bits {w m v : Word} (h : ∀ j, j < 16 → (w.getLsbD j && m.getLsbD j) = v.getLsbD j) :
    (w &&& m == v) = true := by
  simp only [beq_iff_eq]
  exact BitVec.eq_of_getLsbD_eq fun j hj => by simpa using h j hj

/-- A word of format NNN under the mask 0xF000. -/
theorem matches_nnn {op : BitVec 4} {v : Word} (nnn : Addr12) (hv : formatNnn op 0 = v) :
    (formatNnn op nnn &&& 0xF000#16 == v) = true := by
  subst hv
  apply and_eq_of_bits
  intro j hj
  simp only [formatNnn, BitVec.getLsbD_or, getLsbD_placeField]
  interval_cases j <;> simp

/-- A word of format XKK under the mask 0xF000. -/
theorem matches_xkk {op : BitVec 4} {v : Word} (x : Reg) (kk : Byte) (hv : formatXkk op 0 0 = v) :
    (formatXkk op x kk &&& 0xF000#16 == v) = true := by
  subst hv
  apply and_eq_of_bits
  intro j hj
  generalize hb : (BitVec.ofFin x : BitVec 4) = b
  simp only [formatXkk, hb, BitVec.getLsbD_or, getLsbD_placeField]
  interval_cases j <;> simp

/-- A word of format X under the mask 0xF0FF. -/
theorem matches_x {op : BitVec 4} {sub : Byte} {v : Word} (x : Reg) (hv : formatXkk op 0 sub = v) :
    (formatXkk op x sub &&& 0xF0FF#16 == v) = true := by
  subst hv
  apply and_eq_of_bits
  intro j hj
  generalize hb : (BitVec.ofFin x : BitVec 4) = b
  simp only [formatXkk, hb, BitVec.getLsbD_or, getLsbD_placeField]
  interval_cases j <;> simp

/-- A word of format XY under the mask 0xF00F. -/
theorem matches_xy {op : BitVec 4} {sub : Nibble} {v : Word} (x y : Reg) (hv : formatXyn op 0 0 sub = v) :
    (formatXyn op x y sub &&& 0xF00F#16 == v) = true := by
  subst hv
  apply and_eq_of_bits
  intro j hj
  generalize hb : (BitVec.ofFin x : BitVec 4) = b
  generalize hc : (BitVec.ofFin y : BitVec 4) = c
  simp only [formatXyn, hb, hc, BitVec.getLsbD_or, getLsbD_placeField]
  interval_cases j <;> simp

/-- A word of format XYN under the mask 0xF000. -/
theorem matches_xyn {op : BitVec 4} {v : Word} (x y : Reg) (n : Nibble) (hv : formatXyn op 0 0 0 = v) :
    (formatXyn op x y n &&& 0xF000#16 == v) = true := by
  subst hv
  apply and_eq_of_bits
  intro j hj
  generalize hb : (BitVec.ofFin x : BitVec 4) = b
  generalize hc : (BitVec.ofFin y : BitVec 4) = c
  simp only [formatXyn, hb, hc, BitVec.getLsbD_or, getLsbD_placeField]
  interval_cases j <;> simp

theorem cls : Statement .cls := ⟨_, rfl, by decide⟩
theorem ret : Statement .ret := ⟨_, rfl, by decide⟩
theorem jp (nnn : Addr12) : Statement (.jp nnn) := ⟨_, rfl, matches_nnn nnn (by decide)⟩
theorem call (nnn : Addr12) : Statement (.call nnn) := ⟨_, rfl, matches_nnn nnn (by decide)⟩
theorem seImm (x : Reg) (kk : Byte) : Statement (.seImm x kk) := ⟨_, rfl, matches_xkk x kk (by decide)⟩
theorem sneImm (x : Reg) (kk : Byte) : Statement (.sneImm x kk) := ⟨_, rfl, matches_xkk x kk (by decide)⟩
theorem seReg (x y : Reg) : Statement (.seReg x y) := ⟨_, rfl, matches_xy x y (by decide)⟩
theorem ldImm (x : Reg) (kk : Byte) : Statement (.ldImm x kk) := ⟨_, rfl, matches_xkk x kk (by decide)⟩
theorem addImm (x : Reg) (kk : Byte) : Statement (.addImm x kk) := ⟨_, rfl, matches_xkk x kk (by decide)⟩
theorem ldReg (x y : Reg) : Statement (.ldReg x y) := ⟨_, rfl, matches_xy x y (by decide)⟩
theorem orReg (x y : Reg) : Statement (.orReg x y) := ⟨_, rfl, matches_xy x y (by decide)⟩
theorem andReg (x y : Reg) : Statement (.andReg x y) := ⟨_, rfl, matches_xy x y (by decide)⟩
theorem xorReg (x y : Reg) : Statement (.xorReg x y) := ⟨_, rfl, matches_xy x y (by decide)⟩
theorem addReg (x y : Reg) : Statement (.addReg x y) := ⟨_, rfl, matches_xy x y (by decide)⟩
theorem subReg (x y : Reg) : Statement (.subReg x y) := ⟨_, rfl, matches_xy x y (by decide)⟩
theorem shr (x y : Reg) : Statement (.shr x y) := ⟨_, rfl, matches_xy x y (by decide)⟩
theorem subnReg (x y : Reg) : Statement (.subnReg x y) := ⟨_, rfl, matches_xy x y (by decide)⟩
theorem shl (x y : Reg) : Statement (.shl x y) := ⟨_, rfl, matches_xy x y (by decide)⟩
theorem sneReg (x y : Reg) : Statement (.sneReg x y) := ⟨_, rfl, matches_xy x y (by decide)⟩
theorem ldI (nnn : Addr12) : Statement (.ldI nnn) := ⟨_, rfl, matches_nnn nnn (by decide)⟩
theorem jpV0 (nnn : Addr12) : Statement (.jpV0 nnn) := ⟨_, rfl, matches_nnn nnn (by decide)⟩
theorem rnd (x : Reg) (kk : Byte) : Statement (.rnd x kk) := ⟨_, rfl, matches_xkk x kk (by decide)⟩
theorem drw (x y : Reg) (n : Nibble) : Statement (.drw x y n) := ⟨_, rfl, matches_xyn x y n (by decide)⟩
theorem skp (x : Reg) : Statement (.skp x) := ⟨_, rfl, matches_x x (by decide)⟩
theorem sknp (x : Reg) : Statement (.sknp x) := ⟨_, rfl, matches_x x (by decide)⟩
theorem ldVxDt (x : Reg) : Statement (.ldVxDt x) := ⟨_, rfl, matches_x x (by decide)⟩
theorem ldVxKey (x : Reg) : Statement (.ldVxKey x) := ⟨_, rfl, matches_x x (by decide)⟩
theorem ldDtVx (x : Reg) : Statement (.ldDtVx x) := ⟨_, rfl, matches_x x (by decide)⟩
theorem ldStVx (x : Reg) : Statement (.ldStVx x) := ⟨_, rfl, matches_x x (by decide)⟩
theorem addIVx (x : Reg) : Statement (.addIVx x) := ⟨_, rfl, matches_x x (by decide)⟩
theorem ldFVx (x : Reg) : Statement (.ldFVx x) := ⟨_, rfl, matches_x x (by decide)⟩
theorem ldBVx (x : Reg) : Statement (.ldBVx x) := ⟨_, rfl, matches_x x (by decide)⟩
theorem dump (x : Reg) : Statement (.dump x) := ⟨_, rfl, matches_x x (by decide)⟩
theorem load (x : Reg) : Statement (.load x) := ⟨_, rfl, matches_x x (by decide)⟩

end Sys2Proof.Laws.EncodesRow
end

