-- ==== Sys2Proof/Tests/Slice0.lean ====
section
/-! SUPPORT. Tests/Slice0.lean: small tests, each on one step or one operation. Expected values are the worked examples and
vectors of 95_test_vectors.md (named W, S, F, A, D, K, M, L there) or are read off the opcode patterns of R88 by hand. A
theorem named test_witness_* shows a state and operands that meet the hypotheses of the obligation it names. -/

open Sys2Proof Sys2Proof.Machine

namespace Sys2Proof.Tests

set_option Elab.async false

/-! ## Helpers -/

/-- The next state of an outcome. -/
def nextOf : Host.Outcome State Fault Refusal → Option State
  | .next t => some t
  | .fault _ => none
  | .refused _ => none

/-- The fault of an outcome. -/
def faultOf : Host.Outcome State Fault Refusal → Option Fault
  | .next _ => none
  | .fault r => some r
  | .refused _ => none

/-- The refusal of an outcome. -/
def refusalOf : Host.Outcome State Fault Refusal → Option Refusal
  | .next _ => none
  | .fault _ => none
  | .refused r => some r

/-- The state after Reset with a program loaded: nothing in memory, `PHASE = Loaded`. -/
def base : State := { State.reset with phase := .loaded }

/-- A state with some registers set. -/
def regs (s : State) (l : List (Reg × Byte)) : State := l.foldl (fun s p => s.setV p.1 p.2) s

/-- A state with bytes stored from an address on. -/
def bytes (s : State) (a : Nat) (l : List Byte) : State := { s with mem := copyImage s.mem a l }

/-- One step that runs a word at the state's `PC`. -/
def run (w : Nat) (s : State) : Host.Outcome State Fault Refusal := step (s.withFetchWord 16 w)

/-- One value read off the state after running a word. -/
def after {α : Type} (w : Nat) (s : State) (f : State → α) : Option α := (nextOf (run w s)).map f

/-! ## WellFormed and the decoder -/

/-- The one check of WellFormed: without HAS_ANNN (D4) the instruction ANNN does not exist; nothing else is refused. -/
theorem test_wellFormed_refuses_annn_without_the_parameter :
    (Instr.ldI 0x300).wellFormedWith false = false ∧ (Instr.ldI 0x300).wellFormed = true ∧
      (Instr.jp 0x300).wellFormedWith false = true := by decide

/-- Words written out bit by bit from R88's patterns, control flow. -/
theorem test_decode_control :
    decode 0b0000000011101110 = .insn .ret ∧ decode 0b0001001000110100 = .insn (.jp 0x234) ∧
    decode 0b0010010000000000 = .insn (.call 0x400) ∧ decode 0b0011001101000010 = .insn (.seImm 3 0x42) ∧
    decode 0b0100001101000010 = .insn (.sneImm 3 0x42) ∧ decode 0b0101000100100000 = .insn (.seReg 1 2) ∧
    decode 0b1001000100100000 = .insn (.sneReg 1 2) ∧ decode 0b1011001100000000 = .insn (.jpV0 0x300) := by decide

/-- Words written out bit by bit from R88's patterns, ALU and random. -/
theorem test_decode_alu :
    decode 0b0110101000101011 = .insn (.ldImm 10 0x2B) ∧ decode 0b0111001100000001 = .insn (.addImm 3 1) ∧
    decode 0b1000000100100000 = .insn (.ldReg 1 2) ∧ decode 0b1000000100100001 = .insn (.orReg 1 2) ∧
    decode 0b1000000100100010 = .insn (.andReg 1 2) ∧ decode 0b1000000100100011 = .insn (.xorReg 1 2) ∧
    decode 0b1000000100100100 = .insn (.addReg 1 2) ∧ decode 0b1000000100100101 = .insn (.subReg 1 2) ∧
    decode 0b1000000100100110 = .insn (.shr 1 2) ∧ decode 0b1000000100100111 = .insn (.subnReg 1 2) ∧
    decode 0b1000000100101110 = .insn (.shl 1 2) ∧ decode 0b1100000100001111 = .insn (.rnd 1 0x0F) := by decide

/-- Words written out bit by bit from R88's patterns, display, keys and timers. -/
theorem test_decode_display_keys :
    decode 0b0000000011100000 = .insn .cls ∧ decode 0b1101000100100101 = .insn (.drw 1 2 5) ∧
    decode 0b1110010110011110 = .insn (.skp 5) ∧ decode 0b1110010110100001 = .insn (.sknp 5) ∧
    decode 0b1111001100000111 = .insn (.ldVxDt 3) ∧ decode 0b1111001000001010 = .insn (.ldVxKey 2) ∧
    decode 0b1111000000010101 = .insn (.ldDtVx 0) ∧ decode 0b1111000100011000 = .insn (.ldStVx 1) := by decide

/-- Words written out bit by bit from R88's patterns, index register and memory blocks. -/
theorem test_decode_index :
    decode 0b1010001100000000 = .insn (.ldI 0x300) ∧ decode 0b1111001000011110 = .insn (.addIVx 2) ∧
    decode 0b1111010000101001 = .insn (.ldFVx 4) ∧ decode 0b1111010100110011 = .insn (.ldBVx 5) ∧
    decode 0b1111001001010101 = .insn (.dump 2) ∧ decode 0b1111001001100101 = .insn (.load 2) := by decide

/-- S7: illegal words. -/
theorem test_decode_illegal :
    [(0x0000 : Word), 0x0123, 0x5121, 0x800F, 0x8008, 0x912F, 0xE0FF, 0xE09F, 0xF000, 0xF0FF].all
      (fun w => decode w == .unknown w) = true := by decide +kernel

/-- The table word 0x00E0 lies in memory as the bytes 00 E0 (R61). -/
theorem test_table_word :
    decodeTableWord 16 0x00E0 = some .cls ∧ decodeTableWord 16 0xE000 = none ∧ encodeBytes .cls = [0x00, 0xE0] := by decide

/-- P1's image bytes from its assembler lines (R94, 95_test_vectors.md part 3). -/
theorem test_assemble :
    assemble [.insn (.ldImm 0 0x00), .insn (.ldImm 1 0x05), .insn (.addImm 0 1), .insn (.seReg 0 1), .insn (.jp 0x204),
      .insn (.jp 0x20A)] = [0x60, 0x00, 0x61, 0x05, 0x70, 0x01, 0x50, 0x10, 0x12, 0x04, 0x12, 0x0A] := by decide

/-- The spelling of R94. -/
theorem test_asm : (Instr.ldImm 10 0x2B).asm = "LD VA, 0x2B" ∧ (Instr.dump 2).asm = "LD [I], V2" := by decide

/-! ## Memory and Reset -/

/-- M16, R66: the reset contents of memory; a write of what an unlisted address reads as lists nothing. -/
theorem test_reset_memory :
    State.reset.memRead 50 = some 0xF0 ∧ State.reset.memRead 79 = some 0x80 ∧ State.reset.memRead 80 = some 0 ∧
    State.reset.memRead 4095 = some 0 ∧ State.reset.memRead 4096 = none ∧ Memory.write [] 0 0xF0 = [] ∧
    Memory.write (Memory.write [] 0x300 5) 0x200 7 = [(0x200, 7), (0x300, 5)] := by decide

/-! ## The step -/

/-- S2, S4: the last legal word, and an odd PC. -/
theorem test_fetch_last_and_odd :
    after 0x1200 { base with pc := 0xFFE } (·.pc) = some 0x200 ∧
    after 0x6007 { base with pc := 0x201 } (fun t => (t.getV 0, t.pc)) = some (7, 0x203) := by decide +kernel

/-- S3: the fetch at 0xFFF faults on its second byte. -/
theorem test_fetch_fault : faultOf (step { base with pc := 0xFFF }) = some (.memoryOutOfBounds 0x1000 0xFFF none) := by
  decide +kernel

/-- S5: DT decays once. -/
theorem test_decay : after 0x6000 { base with dt := 3 } (·.dt) = some 2 := by decide +kernel

/-- S6: an unknown word faults with the word and pc0. -/
theorem test_unknown : faultOf (run 0x0123 { base with dt := 3 }) = some (.unknownInstruction 0x0123 0x200) := by
  decide +kernel

/-- L4: a step before Load has no move. -/
theorem test_step_before_load : refusalOf (step State.reset) = some .noProgram := by decide +kernel

/-- The word is stored big-endian at PC, and the machine is ready to run it. -/
theorem test_withFetchWord :
    (State.reset.withFetchWord 16 0x6A2B).mem = [(0x200, 0x6A), (0x201, 0x2B)] ∧
    (State.reset.withFetchWord 16 0x6A2B).phase = .loaded := by decide +kernel

/-! ## Control flow -/

/-- F2. -/
theorem test_ret :
    after 0x00EE { base with sp := 2, stack := base.stack.set 1 0x456 } (fun t => (t.sp, t.pc, t.stack[1])) =
      some (1, 0x456, 0x456) := by decide +kernel

/-- F1. -/
theorem test_ret_underflow : faultOf (run 0x00EE base) = some (.stackUnderflow 0x200 0x00EE) := by decide +kernel

/-- F3. -/
theorem test_jp : after 0x1ABC base (·.pc) = some 0xABC := by decide +kernel

/-- F5. -/
theorem test_call : after 0x2ABC base (fun t => (t.stack[0], t.sp, t.pc)) = some (0x202, 1, 0xABC) := by decide +kernel

/-- F6, its last step. -/
theorem test_call_overflow : faultOf (run 0x2200 { base with sp := 16 }) = some (.stackOverflow 0x200 0x2200) := by
  decide +kernel

/-- F7, F8. -/
theorem test_seImm :
    after 0x3342 (regs base [(3, 0x42)]) (·.pc) = some 0x204 ∧ after 0x3343 (regs base [(3, 0x42)]) (·.pc) = some 0x202 := by
  decide +kernel

/-- F9. -/
theorem test_sneImm :
    after 0x4342 (regs base [(3, 0x42)]) (·.pc) = some 0x202 ∧ after 0x4343 (regs base [(3, 0x42)]) (·.pc) = some 0x204 := by
  decide +kernel

/-- F10, F12. -/
theorem test_seReg :
    after 0x5120 (regs base [(1, 7), (2, 7)]) (·.pc) = some 0x204 ∧
    after 0x5120 (regs base [(1, 7), (2, 8)]) (·.pc) = some 0x202 := by decide +kernel

/-- F12, F13. -/
theorem test_sneReg :
    after 0x9120 (regs base [(1, 7), (2, 8)]) (·.pc) = some 0x204 ∧ after 0x9110 base (·.pc) = some 0x202 := by
  decide +kernel

/-- F15, F16. -/
theorem test_jpV0 :
    after 0xBFFF (regs base [(0, 0xFF)]) (·.pc) = some 0x10FE ∧ after 0xB200 (regs base [(0, 1)]) (·.pc) = some 0x201 := by
  decide +kernel

/-! ## ALU and random -/

/-- A1, A2. -/
theorem test_ldImm :
    after 0x6A2B base (·.getV 10) = some 0x2B ∧ after 0x6FAA base (·.getV vf) = some 0xAA := by decide +kernel

/-- W1, A4. -/
theorem test_addImm :
    after 0x7301 (regs base [(3, 0xFF), (vf, 0x55)]) (fun t => (t.getV 3, t.getV vf)) = some (0x00, 0x55) ∧
    after 0x7FFF (regs base [(vf, 1)]) (·.getV vf) = some 0 := by decide +kernel

/-- A5, A30. -/
theorem test_ldReg :
    after 0x8120 (regs base [(2, 0x99)]) (·.getV 1) = some 0x99 ∧
    after 0x81F0 (regs base [(1, 0x12), (vf, 0x34)]) (·.getV 1) = some 0x34 := by decide +kernel

/-- A6: VF is not cleared. -/
theorem test_orReg :
    after 0x8121 (regs base [(1, 0x0F), (2, 0xF0), (vf, 1)]) (fun t => (t.getV 1, t.getV vf)) = some (0xFF, 1) := by
  decide +kernel

/-- A7. -/
theorem test_andReg : after 0x8122 (regs base [(1, 0x3C), (2, 0x0F)]) (·.getV 1) = some 0x0C := by decide +kernel

/-- A8, A9. -/
theorem test_xorReg :
    after 0x8123 (regs base [(1, 0xFF), (2, 0x0F)]) (·.getV 1) = some 0xF0 ∧
    after 0x8113 (regs base [(1, 0x5A)]) (·.getV 1) = some 0 := by decide +kernel

/-- A10, A11, W2: the inverted flag at sum 255 and 256. -/
theorem test_addReg :
    after 0x8124 (regs base [(1, 0x7F), (2, 0x80)]) (fun t => (t.getV 1, t.getV vf)) = some (0xFF, 1) ∧
    after 0x8124 (regs base [(1, 0x80), (2, 0x80)]) (fun t => (t.getV 1, t.getV vf)) = some (0x00, 0) ∧
    after 0x8124 (regs base [(1, 0xFF), (2, 0x01)]) (fun t => (t.getV 1, t.getV vf)) = some (0x00, 0) := by decide +kernel

/-- W3, A14. -/
theorem test_subReg :
    after 0x8125 (regs base [(1, 1), (2, 2)]) (fun t => (t.getV 1, t.getV vf)) = some (0xFF, 0) ∧
    after 0x8125 (regs base [(1, 5), (2, 5)]) (fun t => (t.getV 1, t.getV vf)) = some (0, 1) := by decide +kernel

/-- A17, A18: VY is not read. -/
theorem test_shr :
    after 0x8106 (regs base [(1, 5)]) (fun t => (t.getV 1, t.getV vf)) = some (2, 1) ∧
    after 0x8126 (regs base [(1, 0x80), (2, 0xFF)]) (fun t => (t.getV 1, t.getV vf)) = some (0x40, 0) := by decide +kernel

/-- A19, A20. -/
theorem test_subnReg :
    after 0x8127 (regs base [(1, 2), (2, 1)]) (fun t => (t.getV 1, t.getV vf)) = some (0xFF, 0) ∧
    after 0x8127 (regs base [(1, 5), (2, 5)]) (fun t => (t.getV 1, t.getV vf)) = some (0, 1) := by decide +kernel

/-- A22, A23. -/
theorem test_shl :
    after 0x810E (regs base [(1, 0x81)]) (fun t => (t.getV 1, t.getV vf)) = some (0x02, 1) ∧
    after 0x810E (regs base [(1, 0x7F)]) (fun t => (t.getV 1, t.getV vf)) = some (0xFE, 0) := by decide +kernel

/-- A28: both registers take draws; A27: no other register changes. -/
theorem test_vf_operand :
    after 0x81F5 (regs base [(1, 4), (vf, 3)]) (fun t => (t.getV 1, t.getV vf)) =
      some (Config.drawAnyX 0, Config.drawAnyF 0) ∧
    after 0x8F14 (regs base [(1, 4), (vf, 3)]) (fun t => (t.getV 1, t.getV vf)) = some (4, Config.drawAnyF 0) := by
  constructor <;> rfl

/-- A24, A25: the result for a random byte. -/
theorem test_rnd_result : rndResult 0xA7 0x0F = 0x07 ∧ ∀ d, rndResult d 0 = 0 := by decide

/-- A26: the random byte is the draw. -/
theorem test_rnd : after 0xC1FF base (fun t => (t.getV 1, t.draws)) = some (Config.drawRnd 0 &&& 0xFF, 1) := by rfl

/-! ## Display -/

/-- D2, and a set pixel. -/
theorem test_cls :
    after 0x00E0 { base with fb := 5 } (fun t => (t.pixel 0 0, t.pixel 2 0, t.redraw)) = some (false, false, true) := by
  decide +kernel

/-- W5: a row of 8 pixels at column 63 is clipped and does not wrap. -/
theorem test_drw_clips :
    after 0xD121 (bytes { regs base [(1, 63), (2, 0)] with i := 0x300 } 0x300 [0xFF])
      (fun t => (t.pixel 63 0, t.pixel 0 0, t.pixel 6 0, t.pixel 0 1, t.getV vf)) =
      some (true, false, false, false, 0) := by decide +kernel

/-- D12: a collision in row 1 counts for the whole sprite; D13's order of reads: the old VF is the coordinate. -/
theorem test_drw_collides :
    after 0xD012 (bytes { base with i := 0x300, fb := BitVec.twoPow 2048 64 } 0x300 [0x80, 0x80])
      (fun t => (t.pixel 0 0, t.pixel 0 1, t.getV vf, t.redraw)) = some (true, false, 1, true) ∧
    after 0xDF11 (bytes { regs base [(vf, 5), (1, 2)] with i := 0x300 } 0x300 [0x80])
      (fun t => (t.pixel 5 2, t.getV vf)) = some (true, 0) := by decide +kernel

/-- D9: a clipped row is still read. -/
theorem test_drw_fault :
    faultOf (run 0xD112 { regs base [(1, 0x50)] with i := 0xFFF }) =
      some (.memoryOutOfBounds 0x1000 0x200 (some 0xD112)) := by decide +kernel

/-! ## Keys and timers -/

/-- K1, K2. -/
theorem test_skp :
    after 0xE59E ((regs base [(5, 9)]).keyWrite 9 true) (·.pc) = some 0x204 ∧
    after 0xE59E (regs base [(5, 9)]) (·.pc) = some 0x202 := by decide +kernel

/-- K3, K4. -/
theorem test_sknp :
    after 0xE5A1 (regs base [(5, 9)]) (·.pc) = some 0x204 ∧
    after 0xE5A1 ((regs base [(5, 9)]).keyWrite 9 true) (·.pc) = some 0x202 := by decide +kernel

/-- K5, K6. -/
theorem test_key_faults :
    faultOf (run 0xE19E (regs base [(1, 16)])) = some (.keyIndexOutOfRange 16 0x200 0xE19E) ∧
    faultOf (run 0xE1A1 (regs base [(1, 0xFF)])) = some (.keyIndexOutOfRange 0xFF 0x200 0xE1A1) := by decide +kernel

/-- K7, K8. -/
theorem test_ldVxDt :
    after 0xF307 { base with dt := 5 } (fun t => (t.getV 3, t.dt)) = some (5, 4) ∧
    after 0xF307 { base with dt := 1 } (fun t => (t.getV 3, t.dt)) = some (1, 0) := by decide +kernel

/-- K9. -/
theorem test_wait_no_key :
    after 0xF20A { base with pc := 0x206, dt := 2 } (fun t => (t.pc, t.getV 2, t.dt)) = some (0x206, 0, 1) := by
  decide +kernel

/-- K10. -/
theorem test_wait_highest_key :
    after 0xF20A (({ base with pc := 0x206 }.keyWrite 3 true).keyWrite 9 true) (fun t => (t.pc, t.getV 2)) =
      some (0x208, 9) := by decide +kernel

/-- K13, K15. -/
theorem test_ldDtVx :
    after 0xF015 (regs base [(0, 5)]) (·.dt) = some 4 ∧ after 0xF015 { base with dt := 9 } (·.dt) = some 0 := by
  decide +kernel

/-- K16. -/
theorem test_ldStVx : after 0xF118 (regs base [(1, 0x20)]) (·.st) = some 0x20 := by decide +kernel

/-! ## Index register and memory blocks -/

/-- M1. -/
theorem test_ldI : after 0xA300 base (·.i) = some 0x300 := by decide +kernel

/-- M2, M4. -/
theorem test_addIVx :
    after 0xF21E { regs base [(2, 1)] with i := 0x0FFF } (·.i) = some 0x1000 ∧
    faultOf (run 0xF21E { regs base [(2, 1)] with i := 0xFFFF }) = some (.indexOverflow 0x10000 0x200 0xF21E) := by
  decide +kernel

/-- W7, M6. -/
theorem test_ldFVx :
    after 0xF429 (regs base [(4, 0x0A)]) (·.i) = some 50 ∧ after 0xF229 (regs base [(2, 0xFF)]) (·.i) = some 0x4FB := by
  decide +kernel

/-- W8. -/
theorem test_ldBVx :
    after 0xF533 { regs base [(5, 0xFE)] with i := 0x300 }
      (fun t => (t.memRead 0x300, t.memRead 0x301, t.memRead 0x302, t.i)) =
      some (some 2, some 5, some 4, 0x300) := by decide +kernel

/-- M11. -/
theorem test_ldBVx_fault :
    faultOf (run 0xF333 { regs base [(3, 1)] with i := 0xFFE }) =
      some (.memoryOutOfBounds 0x1000 0x200 (some 0xF333)) := by decide +kernel

/-- M12, M17. -/
theorem test_dump :
    after 0xF255 { regs base [(0, 1), (1, 2), (2, 3)] with i := 0x300 }
      (fun t => (t.memRead 0x300, t.memRead 0x301, t.memRead 0x302, t.memRead 0x303, t.i)) =
      some (some 1, some 2, some 3, some 0, 0x300) ∧
    after 0xF055 { regs base [(0, 0x12)] with i := 0x200 } (·.memRead 0x200) = some (some 0x12) := by decide +kernel

/-- M13's boundary, M14. -/
theorem test_dump_bounds :
    after 0xFF55 { regs base [(vf, 9)] with i := 0xFF0 } (·.memRead 0xFFF) = some (some 9) ∧
    faultOf (run 0xFF55 { base with i := 0xFF1 }) = some (.memoryOutOfBounds 0x1000 0x200 (some 0xFF55)) := by
  decide +kernel

/-- M15, M16. -/
theorem test_load :
    after 0xF265 (bytes { regs base [(3, 7)] with i := 0x300 } 0x300 [2, 5, 4])
      (fun t => (t.getV 0, t.getV 1, t.getV 2, t.getV 3, t.i)) = some (2, 5, 4, 7, 0x300) ∧
    after 0xFF65 base (fun t => t.v.toList) =
      some [0xF0, 0x90, 0x90, 0x90, 0xF0, 0x20, 0x60, 0x20, 0x20, 0x70, 0xF0, 0x10, 0xF0, 0x80, 0xF0, 0xF0] := by
  decide +kernel

/-! ## Load and the host -/

/-- L2, L3. -/
theorem test_load_image :
    (nextOf (State.reset.load [0xAB])).map (fun t => (t.memRead 0x200, t.memRead 0x201, t.phase)) =
      some (some 0xAB, some 0, .loaded) ∧
    refusalOf (base.load [0xAB]) = some .loadNotAdmitted := by decide +kernel

/-- W9, its failing lengths. -/
theorem test_load_failures :
    (nextOf (State.reset.load [])).map (·.phase) = some (.loadFailed .emptyImage) ∧
    loadFailure (List.replicate 3585 0) = some .imageTooLarge ∧ loadFailure (List.replicate 3584 0) = none := by
  decide +kernel

/-- K17: the sound tick stops at 0. -/
theorem test_sound_tick :
    ({ base with st := 1 }.soundTick).st = 0 ∧ ({ base with st := 1 }.soundTick.soundTick).st = 0 := by decide

/-! ## Witnesses: the hypotheses of each obligation hold of something -/

theorem test_witness_DecodeEncodeRoundTrip : (Instr.ldI 0xFFF).wellFormed = true ∧ (Instr.drw 15 15 15).wellFormed = true := by
  decide

theorem test_witness_EncodeDecodeRoundTrip : decode 0xFF65 = .insn (.load 15) ∧ encode (.load 15) = 0xFF65 := by decide

theorem test_witness_DecodeFollowsOpcodeTable :
    (∃ row, opcodeTable[33]? = some row ∧ row.matches 0xF065 = true) ∧ decode 0x6A2B = .insn (.ldImm 10 0x2B) ∧
    (∀ row ∈ opcodeTable, row.matches 0x8008 = false) := ⟨⟨_, rfl, by decide⟩, by decide, by decide⟩

theorem test_witness_IllegalWordsAreExactlyThese : decode 0x00E1 = .unknown 0x00E1 ∧ decode 0xF1FF = .unknown 0xF1FF := by
  decide

/-- S8 too: without HAS_ANNN the word 0xA123 is unknown. -/
theorem test_witness_HasAnnnDecidesOnlyAnnn :
    (0xA123#16 &&& 0xF000#16 = 0xA000#16) ∧ decodeWith false 0xA123 = .unknown 0xA123 ∧
    (0xB123#16 &&& 0xF000#16 ≠ 0xA000#16) := by decide

/-- An admitted state with a word at PC. -/
def ready (w : Nat) : State := base.withFetchWord 16 w

theorem ready_admitted (w : Nat) : (ready w).admitted := ⟨rfl, .inl rfl⟩

theorem test_witness_StepRunsDecodedInstruction :
    (ready 0x6A2B).admitted ∧ (ready 0x6A2B).memRead 0x200 = some 0x6A ∧ (ready 0x6A2B).memRead 0x201 = some 0x2B ∧
    decode (wordOfBytes 0x6A 0x2B) = .insn (.ldImm 10 0x2B) ∧ (ready 0x6A2B).pc = 0x200 :=
  ⟨ready_admitted _, by decide +kernel, by decide +kernel, by decide, rfl⟩

theorem test_witness_FetchOutsideMemoryFaults :
    { base with pc := 0x10FE }.admitted ∧ 4096 ≤ { base with pc := 0x10FE }.pc.toNat ∧
    { base with pc := 0x1000 }.admitted ∧ 4096 ≤ { base with pc := 0x1000 }.pc.toNat ∧
    { base with pc := 0xFFF }.admitted ∧ { base with pc := 0xFFF }.pc.toNat = 4095 :=
  ⟨⟨rfl, .inl rfl⟩, by decide, ⟨rfl, .inl rfl⟩, by decide, ⟨rfl, .inl rfl⟩, by decide⟩

theorem test_witness_UnknownWordFaults :
    (ready 0x0123).admitted ∧ (ready 0x0123).memRead 0x200 = some 0x01 ∧ (ready 0x0123).memRead 0x201 = some 0x23 ∧
    ∀ i, decode (wordOfBytes 0x01 0x23) ≠ .insn i :=
  ⟨ready_admitted _, by decide +kernel, by decide +kernel, fun i h => by
    rw [show decode (wordOfBytes 0x01 0x23) = .unknown 0x0123 by decide] at h; cases h⟩

theorem test_witness_StepRefusedExactlyWhenNotAdmitted :
    (base.takeFault (.stackUnderflow 0x200 0x00EE)).status = .faulted (.stackUnderflow 0x200 0x00EE) ∧
    (State.reset.status = .running ∧ State.reset.phase = .reset) ∧
    ({ base with phase := .loadFailed .emptyImage }.phase = .loadFailed .emptyImage) ∧ (ready 0x00E0).admitted :=
  ⟨rfl, ⟨rfl, rfl⟩, rfl, ready_admitted _⟩

theorem test_witness_FaultsComeOnlyFromTheirCauses :
    faultOf (exec (.call 0) { base with sp := 16 }) = some (.stackOverflow 0x1FE 0x2000) ∧
    faultOf (exec .ret base) = some (.stackUnderflow 0x1FE 0x00EE) ∧
    faultOf (exec (.drw 0 0 1) { base with i := 0x1000 }) = some (.memoryOutOfBounds 0x1000 0x1FE (some 0xD001)) ∧
    faultOf (exec (.ldBVx 0) { base with i := 0xFFE }) = some (.memoryOutOfBounds 0x1000 0x1FE (some 0xF033)) ∧
    faultOf (exec (.dump 15) { base with i := 0xFF1 }) = some (.memoryOutOfBounds 0x1000 0x1FE (some 0xFF55)) ∧
    faultOf (exec (.load 0) { base with i := 0xFFFF }) = some (.memoryOutOfBounds 0xFFFF 0x1FE (some 0xF065)) ∧
    faultOf (exec (.skp 1) (regs base [(1, 16)])) = some (.keyIndexOutOfRange 16 0x1FE 0xE19E) ∧
    faultOf (exec (.addIVx 1) { regs base [(1, 1)] with i := 0xFFFF }) = some (.indexOverflow 0x10000 0x1FE 0xF11E) := by
  decide +kernel

theorem test_witness_DelayTimerCountsDownOncePerStep :
    (∃ t, fetch (ready 0xF015).mem (ready 0xF015).pc = .ok 0xF015 ∧ decode 0xF015 = .insn (.ldDtVx 0) ∧
      step (ready 0xF015) = .next t) ∧
    (∃ t, fetch (ready 0x6000).mem (ready 0x6000).pc = .ok 0x6000 ∧ decode 0x6000 = .insn (.ldImm 0 0) ∧
      step (ready 0x6000) = .next t) :=
  ⟨⟨_, rfl, by decide, rfl⟩, ⟨_, rfl, by decide, rfl⟩⟩

theorem test_witness_StepLeavesHostSideAlone :
    ∃ t, step ((regs base [(1, 0x20)]).withFetchWord 16 0xF118) = .next t ∧ t.st ≠ base.st := ⟨_, rfl, by decide⟩

theorem test_witness_ExecWritesOnlyWhatItsRuleNames :
    (∃ t, exec (.dump 3) { base with i := 0x300 } = .next t) ∧ (∃ t, exec (.subReg 1 vf) base = .next t) :=
  ⟨⟨_, rfl⟩, ⟨_, rfl⟩⟩

theorem test_witness_RedrawIsSetUnconditionally :
    (∃ t, exec .cls base = .next t) ∧ (∃ t, exec (.drw 0 0 0) base = .next t) ∧ (∃ t, exec (.jp 0x200) base = .next t) :=
  ⟨⟨_, rfl⟩, ⟨_, rfl⟩, ⟨_, rfl⟩⟩

theorem base_inv : base.Inv := by unfold State.Inv; decide +kernel

theorem test_witness_StepKeepsInvariant :
    ∃ s t : State, s.Inv ∧ step s = .next t ∧ t.pc = 0x10FE :=
  ⟨(regs base [(0, 0xFF)]).withFetchWord 16 0xBFFF, _, by unfold State.Inv; decide +kernel, rfl, by decide +kernel⟩

theorem test_witness_HostActionsKeepInvariant :
    Session.start.machine.Inv ∧ (∃ r', Session.start.act (.load [0x12, 0x00]) = .next r') ∧
    (∃ r', Session.start.act (.keyWrite 15 true) = .next r') :=
  ⟨by unfold State.Inv; decide +kernel, ⟨_, rfl⟩, ⟨_, rfl⟩⟩

theorem test_witness_ResetZeroesRegisters : State.reset.pixel 63 31 = false ∧ 63 < 64 ∧ 31 < 32 := by decide +kernel

theorem test_witness_ResetMemoryAndLaunch :
    State.reset.memRead 0 = some 0xF0 ∧ State.reset.memRead 79 = font[79]? ∧ State.reset.memRead 80 = some 0 ∧
    State.reset.memRead 4095 = some 0 ∧ State.reset.memRead 4096 = none := by decide +kernel

theorem test_witness_RetPopsOrUnderflows :
    base.sp.val = 0 ∧ 0 < { base with sp := 1 }.sp.val ∧ 0 < { base with sp := 16 }.sp.val := by decide

theorem test_witness_CallPushesOrOverflows :
    { base with sp := 16 }.sp.val = 16 ∧ base.sp.val < 16 ∧ { base with sp := 15 }.sp.val < 16 := by decide

theorem test_witness_CallThenReturnRestoresPc : ∃ t, exec (.call 0x300) { base with sp := 15 } = .next t := ⟨_, rfl⟩

theorem test_witness_SkipsCompareRegisters : ∃ x y : Reg, x = y ∧ base.getV x = base.getV y := ⟨vf, vf, rfl, rfl⟩

theorem test_witness_AddInvertsItsOverflowFlag : ((0 : Reg) ≠ vf) ∧ ((14 : Reg) ≠ vf) := by decide

theorem test_witness_SubtractsFlagNoBorrow : ((14 : Reg) ≠ vf) ∧ ((14 : Reg) ≠ vf) := by decide

theorem test_witness_ShiftsUseVxOnly :
    ((14 : Reg) ≠ vf) ∧ (nextOf (exec (.shr 14 vf) (regs base [(14, 3)]))).map (·.getV 14) = some 1 := by decide +kernel

theorem test_witness_VfOperandTakesDraws :
    ((vf : Reg) = vf ∨ (1 : Reg) = vf) ∧ ((1 : Reg) = vf ∨ (vf : Reg) = vf) ∧ ((1 : Reg) ≠ vf) := by decide

theorem test_witness_RandomIsAndedWithImmediate : (0x0F : Byte).getLsbD 4 = false := by decide

theorem test_witness_DrawXorsClipsAndReportsCollision :
    ((0 : Nibble) = 0) ∧ { base with i := 0xFF1 }.i.toNat + (15 : Nibble).toNat ≤ 4096 ∧
    (∃ px py, px < 64 ∧ py < 32 ∧ { base with fb := 1 }.pixel px py = true ∧
      spriteCovers 0 0 1 (fun r => base.mem.read (0 + r)) px py = true) ∧
    (∀ px, px < 64 → ∀ py, py < 32 → base.pixel px py = true →
      spriteCovers 0 0 1 (fun r => base.mem.read (0 + r)) px py = false) :=
  ⟨by decide, by decide, ⟨0, 0, by decide, by decide, by decide +kernel, by decide +kernel⟩, by decide +kernel⟩

theorem test_witness_DrawingTwiceRestoresTheScreen :
    ((0 : Reg) ≠ vf) ∧ ((1 : Reg) ≠ vf) ∧ ∃ t, exec (.drw 0 1 5) base = .next t := ⟨by decide, by decide, ⟨_, rfl⟩⟩

theorem test_witness_KeySkips :
    ((regs base [(1, 15)]).getV 1).toNat = (15 : Fin 16).val ∧ 15 < ((regs base [(1, 16)]).getV 1).toNat := by decide +kernel

theorem test_witness_WaitForKeyTakesTheHighest :
    ((base.keyWrite 3 true).key[(3 : Fin 16).val] ≠ 0 ∧ ∀ j : Fin 16, 3 < j → (base.keyWrite 3 true).key[j.val] = 0) ∧
    (∀ k : Fin 16, base.key[k.val] = 0) := by decide +kernel

theorem test_witness_WaitForKeyRepeatsForever :
    (ready 0xF20A).admitted ∧ fetch (ready 0xF20A).mem (ready 0xF20A).pc = .ok 0xF20A ∧
    decode 0xF20A = .insn (.ldVxKey 2) ∧ ∀ j : Fin 16, (ready 0xF20A).key[j.val] = 0 :=
  ⟨ready_admitted _, rfl, by decide, by decide +kernel⟩

theorem test_witness_AddToIndexIsExact :
    { regs base [(1, 0xFF)] with i := 0xFF00 }.i.toNat + ((regs base [(1, 0xFF)]).getV 1).toNat ≤ 0xFFFF ∧
    0xFFFF < { regs base [(1, 0xFF)] with i := 0xFF01 }.i.toNat + ((regs base [(1, 0xFF)]).getV 1).toNat := by
  decide +kernel

theorem test_witness_BcdStoresThreeDigits :
    { base with i := 0xFFD }.i.toNat + 3 ≤ 4096 ∧ ∃ t, exec (.ldBVx 0) { base with i := 0xFFD } = .next t :=
  ⟨by decide, ⟨_, rfl⟩⟩

theorem test_witness_RegisterDumpStoresTheBlock : { base with i := 0xFF0 }.i.toNat + (15 : Reg).val + 1 ≤ 4096 := by decide

theorem test_witness_RegisterLoadReadsTheBlock :
    { base with i := 0xFF0 }.i.toNat + (15 : Reg).val + 1 ≤ 4096 ∧
    ∃ t, exec (.load 15) { base with i := 0xFF0 } = .next t := ⟨by decide, ⟨_, rfl⟩⟩

theorem test_witness_BlocksFaultAtTheFirstBadAddress :
    ((15 : Nibble) ≠ 0 ∧ 4096 < { base with i := 0xFF2 }.i.toNat + (15 : Nibble).toNat) ∧
    (4096 < { base with i := 0xFFE }.i.toNat + 3) ∧ (4096 < { base with i := 0xFF1 }.i.toNat + (15 : Reg).val + 1) := by
  decide

theorem test_witness_StoreIsSeenByTheNextFetch :
    1 ≤ (1 : Reg).val ∧ ∃ t, exec (.dump 1) { base with i := 0x202 } = .next t := ⟨by decide, ⟨_, rfl⟩⟩

theorem test_witness_RedrawAndSoundAreInvisible :
    (∃ t, step (ready 0x00E0) = .next t) ∧ (∃ f, step (ready 0x00EE) = .fault f) ∧ (∃ r, step State.reset = .refused r) :=
  ⟨⟨_, rfl⟩, ⟨_, rfl⟩, ⟨_, rfl⟩⟩

theorem test_witness_OnlyDrawReadersDependOnDraws :
    readsDraw (.addReg 1 2) = false ∧ (∃ t, exec (.addReg 1 2) base = .next t) ∧ readsDraw .ret = false ∧
    ∃ f, exec .ret base = .fault f := ⟨by decide, ⟨_, rfl⟩, by decide, ⟨_, rfl⟩⟩

theorem test_witness_LoadCopiesTheImage :
    State.reset.phase = .reset ∧ 1 ≤ (List.replicate 3584 (7 : Byte)).length ∧
    (List.replicate 3584 (7 : Byte)).length ≤ 3584 := by
  rw [List.length_replicate]; decide

theorem test_witness_LoadFailsOrIsRefused :
    State.reset.phase = .reset ∧ ([] : List Byte).length = 0 ∧ 3584 < (List.replicate 3585 (7 : Byte)).length ∧
    base.phase ≠ .reset := by rw [List.length_replicate]; decide

theorem test_witness_HostWritesOnlyItsFields :
    Session.start.ended = false ∧ (Session.start.withMachine { base with redraw := true }).ended = false ∧
    (Session.start.withMachine { base with redraw := true }).machine.redraw = true := by decide

theorem test_witness_FaultIsFinal :
    (Session.start.withMachine (ready 0x00EE)).ended = false ∧
    ∃ f, step (Session.start.withMachine (ready 0x00EE)).machine = .fault f := ⟨by decide, ⟨_, rfl⟩⟩

theorem test_witness_ResetHasAMoveOnlyAfterTheEnd :
    Session.start.ended = false ∧ ({ Session.start with terminated := true } : Session).terminated = true ∧
    (Session.start.withMachine (base.takeFault (.stackUnderflow 0x200 0x00EE))).machine.status =
      .faulted (.stackUnderflow 0x200 0x00EE) ∧
    (Session.start.withMachine { base with phase := .loadFailed .emptyImage }).machine.phase = .loadFailed .emptyImage :=
  ⟨by decide, rfl, rfl, rfl⟩

theorem test_witness_DriverIterationTicksTheSoundTimer :
    (Session.start.withMachine (ready 0x00E0)).ended = false ∧
    ∃ t, step ([((3 : Fin 16), true)].foldl (fun s k => s.keyWrite k.1 k.2)
      (Session.start.withMachine (ready 0x00E0)).machine) = .next t := ⟨by decide, ⟨_, rfl⟩⟩

end Sys2Proof.Tests
end

section
/-! SUPPORT. Frames: what each operation and each instruction leaves as it was (10_state.md R47, 40_step.md R104), what
`REDRAW` and `ST` can influence (R45, R250), and the statements of 10_state.md settled from them. -/

namespace Sys2Proof.Machine

/-! ## Frames in general -/

/-- A frame may name more parts than change. -/
theorem KeepsBut.mono {p q : List Part} {s t : State} (h : KeepsBut p s t) (hpq : ∀ x ∈ p, x ∈ q) :
    KeepsBut q s t := by
  obtain ⟨hv, hi, hpc, hstack, hdt, hst, hmem, hfb, hkey, hredraw, hlaunch, hdraws⟩ := h
  exact ⟨fun n => hv (mt (hpq _) n), fun n => hi (mt (hpq _) n), fun n => hpc (mt (hpq _) n),
    fun n => hstack (mt (hpq _) n), fun n => hdt (mt (hpq _) n), fun n => hst (mt (hpq _) n),
    fun n => hmem (mt (hpq _) n), fun n => hfb (mt (hpq _) n), fun n => hkey (mt (hpq _) n),
    fun n => hredraw (mt (hpq _) n), fun n => hlaunch (mt (hpq _) n), fun n => hdraws (mt (hpq _) n)⟩

/-- Two changes within the same parts, one after the other, stay within them. -/
theorem KeepsBut.trans {p : List Part} {s t u : State} (h : KeepsBut p s t) (h' : KeepsBut p t u) : KeepsBut p s u := by
  obtain ⟨hv, hi, hpc, hstack, hdt, hst, hmem, hfb, hkey, hredraw, hlaunch, hdraws⟩ := h
  obtain ⟨hv', hi', hpc', hstack', hdt', hst', hmem', hfb', hkey', hredraw', hlaunch', hdraws'⟩ := h'
  exact ⟨fun n r => (hv' n r).trans (hv n r), fun n => (hi' n).trans (hi n), fun n => (hpc' n).trans (hpc n),
    fun n => ⟨(hstack' n).1.trans (hstack n).1, (hstack' n).2.trans (hstack n).2⟩, fun n => (hdt' n).trans (hdt n),
    fun n => (hst' n).trans (hst n), fun n a => (hmem' n a).trans (hmem n a), fun n => (hfb' n).trans (hfb n),
    fun n => (hkey' n).trans (hkey n), fun n => (hredraw' n).trans (hredraw n),
    fun n => ⟨(hlaunch' n).1.trans (hlaunch n).1, (hlaunch' n).2.trans (hlaunch n).2⟩,
    fun n => (hdraws' n).trans (hdraws n)⟩

/-! The parts of a frame, by name. -/

theorem KeepsBut.getV_eq {p : List Part} {s t : State} (h : KeepsBut p s t) (hp : Part.v ∉ p) (r : Reg) :
    t.getV r = s.getV r := h.1 hp r

theorem KeepsBut.st_eq {p : List Part} {s t : State} (h : KeepsBut p s t) (hp : Part.st ∉ p) : t.st = s.st := by
  obtain ⟨-, -, -, -, -, hst, -⟩ := h
  exact hst hp

theorem KeepsBut.memRead_eq {p : List Part} {s t : State} (h : KeepsBut p s t) (hp : Part.mem ∉ p) (a : Nat) :
    t.memRead a = s.memRead a := by
  obtain ⟨-, -, -, -, -, -, hmem, -⟩ := h
  exact hmem hp a

theorem KeepsBut.key_eq {p : List Part} {s t : State} (h : KeepsBut p s t) (hp : Part.key ∉ p) : t.key = s.key := by
  obtain ⟨-, -, -, -, -, -, -, -, hkey, -⟩ := h
  exact hkey hp

theorem KeepsBut.redraw_eq {p : List Part} {s t : State} (h : KeepsBut p s t) (hp : Part.redraw ∉ p) :
    t.redraw = s.redraw := by
  obtain ⟨-, -, -, -, -, -, -, -, -, hredraw, -⟩ := h
  exact hredraw hp

theorem KeepsBut.launch_eq {p : List Part} {s t : State} (h : KeepsBut p s t) (hp : Part.launch ∉ p) :
    t.status = s.status ∧ t.phase = s.phase := by
  obtain ⟨-, -, -, -, -, -, -, -, -, -, hlaunch, -⟩ := h
  exact hlaunch hp

theorem KeepsBut.draws_eq {p : List Part} {s t : State} (h : KeepsBut p s t) (hp : Part.draws ∉ p) :
    t.draws = s.draws := by
  obtain ⟨-, -, -, -, -, -, -, -, -, -, -, hdraws⟩ := h
  exact hdraws hp

/-! ## The frame of each operation -/

theorem keepsBut_setV (s : State) (x : Reg) (b : Byte) : KeepsBut [.v] s (s.setV x b) := by
  simp [KeepsBut, State.memRead]

theorem keepsBut_setRegBlock (s : State) (bytes : List Byte) : KeepsBut [.v] s (s.setRegBlock bytes) := by
  simp [KeepsBut, State.memRead]

theorem keepsBut_setI (s : State) (w : Word) : KeepsBut [.i] s (s.setI w) := by simp [KeepsBut, State.memRead]

theorem keepsBut_setMem (s : State) (m : Memory) : KeepsBut [.mem] s (s.setMem m) := by simp [KeepsBut]

theorem keepsBut_jumpTo (s : State) (w : Word) : KeepsBut [.pc] s (s.jumpTo w) := by simp [KeepsBut, State.memRead]

theorem keepsBut_skipIf (s : State) (c : Bool) : KeepsBut [.pc] s (s.skipIf c) := by simp [KeepsBut, State.memRead]

theorem keepsBut_nextDraw (s : State) : KeepsBut [.draws] s s.nextDraw := by simp [KeepsBut, State.memRead]

theorem keepsBut_writeFlagged (s : State) (x : Reg) (named : Bool) (result flag : Byte) :
    KeepsBut [.v, .draws] s (s.writeFlagged x named result flag) := by
  obtain ⟨vs, h⟩ := State.writeFlagged_frame s x named result flag
  rw [h]
  simp [KeepsBut, State.memRead]

theorem keepsBut_setFb (s : State) (fb : BitVec 2048) (redraw : Bool) :
    KeepsBut [.fb, .redraw] s { s with fb := fb, redraw := redraw } := by
  simp [KeepsBut, State.memRead, State.getV]

theorem keepsBut_drawSprite (s : State) (x0 y0 : Nat) (rows : List Byte) :
    KeepsBut [.v, .fb, .redraw] s (s.drawSprite x0 y0 rows) :=
  ((keepsBut_setFb s _ true).mono (by decide)).trans ((keepsBut_setV _ vf _).mono (by decide))

theorem keepsBut_push {s t : State} {w : Word} (h : s.push w = some t) : KeepsBut [.stack] s t := by
  unfold State.push at h
  split at h
  · cases h; simp [KeepsBut, State.memRead, State.getV]
  · cases h

theorem keepsBut_pop {s t : State} {w : Word} (h : s.pop = some (w, t)) : KeepsBut [.stack] s t := by
  unfold State.pop at h
  split at h
  · cases h; simp [KeepsBut, State.memRead, State.getV]
  · cases h

/-! ## What an instruction that can fault or wait does when it completes -/

theorem execRet_next {s t : State} (h : execRet s = .next t) : ∃ w u, s.pop = some (w, u) ∧ t = u.jumpTo w := by
  unfold execRet raise at h
  split at h
  · cases h
  · cases h; exact ⟨_, _, ‹_›, rfl⟩

theorem execCall_next {nnn : Addr12} {s t : State} (h : execCall nnn s = .next t) :
    ∃ u, s.push s.pc = some u ∧ t = u.jumpTo (nnn.zeroExtend 16) := by
  unfold execCall raise at h
  split at h
  · cases h
  · cases h; exact ⟨_, ‹_›, rfl⟩

theorem execDrw_next {x y : Reg} {n : Nibble} {s t : State} (h : execDrw x y n s = .next t) :
    ∃ rows, readBlock s.mem s.i.toNat n.toNat = .ok rows ∧
      t = s.drawSprite (s.getV x).toNat (s.getV y).toNat rows := by
  unfold execDrw raise at h
  split at h
  · cases h
  · cases h; exact ⟨_, ‹_›, rfl⟩

theorem execSkp_next {x : Reg} {s t : State} (h : execSkp x s = .next t) :
    ∃ k, s.keyOperand x = some k ∧ t = s.skipIf (s.keyPressed k) := by
  unfold execSkp raise at h
  split at h
  · cases h
  · cases h; exact ⟨_, ‹_›, rfl⟩

theorem execSknp_next {x : Reg} {s t : State} (h : execSknp x s = .next t) :
    ∃ k, s.keyOperand x = some k ∧ t = s.skipIf (!s.keyPressed k) := by
  unfold execSknp raise at h
  split at h
  · cases h
  · cases h; exact ⟨_, ‹_›, rfl⟩

theorem execLdVxKey_next {x : Reg} {s t : State} (h : execLdVxKey x s = .next t) :
    (∃ k, s.scanKeys = some k ∧ t = s.setV x (BitVec.ofNat 8 k.val)) ∨
    (s.scanKeys = none ∧ t = s.jumpTo (s.pc - 2)) := by
  unfold execLdVxKey at h
  split at h
  · cases h; exact .inl ⟨_, ‹_›, rfl⟩
  · cases h; exact .inr ⟨‹_›, rfl⟩

theorem execAddIVx_next {x : Reg} {s t : State} (h : execAddIVx x s = .next t) :
    s.i.toNat + (s.getV x).toNat ≤ 0xFFFF ∧ t = s.setI (BitVec.ofNat 16 (s.i.toNat + (s.getV x).toNat)) := by
  simp only [execAddIVx, raise] at h
  split at h
  · cases h
  · cases h; exact ⟨by omega, rfl⟩

theorem execLdBVx_next {x : Reg} {s t : State} (h : execLdBVx x s = .next t) :
    ∃ m, writeBlock s.mem s.i.toNat (bcdDigits (s.getV x)) = .ok m ∧ t = s.setMem m := by
  unfold execLdBVx raise at h
  split at h
  · cases h
  · cases h; exact ⟨_, ‹_›, rfl⟩

theorem execDump_next {x : Reg} {s t : State} (h : execDump x s = .next t) :
    ∃ m, writeBlock s.mem s.i.toNat (s.regBlock x) = .ok m ∧ t = s.setMem m := by
  unfold execDump raise at h
  split at h
  · cases h
  · cases h; exact ⟨_, ‹_›, rfl⟩

theorem execLoad_next {x : Reg} {s t : State} (h : execLoad x s = .next t) :
    ∃ bytes, readBlock s.mem s.i.toNat (x.val + 1) = .ok bytes ∧ t = s.setRegBlock bytes := by
  unfold execLoad raise at h
  split at h
  · cases h
  · cases h; exact ⟨_, ‹_›, rfl⟩

/-! ## The frame of each instruction (R47, R104) -/

/-- Execution changes only the parts that the instruction's rule names. -/
theorem exec_keepsBut {i : Instr} {s t : State} (h : exec i s = .next t) : KeepsBut (writes i) s t := by
  cases i
  case cls => cases h; exact keepsBut_setFb s 0 true
  case ret =>
    obtain ⟨w, u, hpop, rfl⟩ := execRet_next h
    exact ((keepsBut_pop hpop).mono (by simp [writes])).trans ((keepsBut_jumpTo u w).mono (by simp [writes]))
  case call =>
    obtain ⟨u, hpush, rfl⟩ := execCall_next h
    exact ((keepsBut_push hpush).mono (by simp [writes])).trans ((keepsBut_jumpTo u _).mono (by simp [writes]))
  case jp | jpV0 => cases h; exact keepsBut_jumpTo s _
  case seImm | sneImm | seReg | sneReg => cases h; exact keepsBut_skipIf s _
  case ldImm | addImm | ldReg | orReg | andReg | xorReg | ldVxDt => cases h; exact keepsBut_setV s _ _
  case addReg | subReg | shr | subnReg | shl => cases h; exact keepsBut_writeFlagged s _ _ _ _
  case rnd =>
    cases h
    exact ((keepsBut_setV s _ _).mono (by simp [writes])).trans ((keepsBut_nextDraw _).mono (by simp [writes]))
  case drw =>
    obtain ⟨rows, -, rfl⟩ := execDrw_next h
    exact keepsBut_drawSprite s _ _ rows
  case skp => obtain ⟨k, -, rfl⟩ := execSkp_next h; exact keepsBut_skipIf s _
  case sknp => obtain ⟨k, -, rfl⟩ := execSknp_next h; exact keepsBut_skipIf s _
  case ldVxKey =>
    obtain ⟨k, -, rfl⟩ | ⟨-, rfl⟩ := execLdVxKey_next h
    · exact (keepsBut_setV s _ _).mono (by simp [writes])
    · exact (keepsBut_jumpTo s _).mono (by simp [writes])
  case ldDtVx => cases h; simp [KeepsBut, writes, State.memRead, State.getV]
  case ldStVx => cases h; simp [KeepsBut, writes, State.memRead, State.getV]
  case ldI | ldFVx => cases h; exact keepsBut_setI s _
  case addIVx => obtain ⟨-, rfl⟩ := execAddIVx_next h; exact keepsBut_setI s _
  case ldBVx => obtain ⟨m, -, rfl⟩ := execLdBVx_next h; exact keepsBut_setMem s m
  case dump => obtain ⟨m, -, rfl⟩ := execDump_next h; exact keepsBut_setMem s m
  case load => obtain ⟨bytes, -, rfl⟩ := execLoad_next h; exact keepsBut_setRegBlock s bytes

theorem keepsRegsBut_setV (s : State) (x : Reg) (b : Byte) : KeepsRegsBut [x] s (s.setV x b) := by
  intro r hr
  have hrx : r ≠ x := by simpa using hr
  simp [hrx]

theorem keepsRegsBut_writeFlagged (s : State) (x : Reg) (named : Bool) (result flag : Byte) :
    KeepsRegsBut [x, vf] s (s.writeFlagged x named result flag) := by
  intro r hr
  obtain ⟨hrx, hrf⟩ : r ≠ x ∧ r ≠ vf := by simpa using hr
  rw [State.getV_writeFlagged, if_neg hrf, if_neg hrx]

/-- A register load of `x + 1` bytes keeps every register above `VX` (R216). -/
theorem keepsRegsBut_setRegBlock (s : State) (x : Reg) {bytes : List Byte} (hlen : bytes.length = x.val + 1) :
    KeepsRegsBut (writesRegs (.load x)) s (s.setRegBlock bytes) := by
  intro r hr
  have hxr : x.val < r.val := by simpa [writesRegs] using hr
  have hbeyond : bytes.length ≤ r.val := by omega
  rw [State.getV_setRegBlock, List.getD_eq_default _ _ hbeyond]

theorem length_of_readBlock_ok {m : Memory} {a n : Nat} {bytes : List Byte} (h : readBlock m a n = .ok bytes) :
    bytes.length = n := by
  rw [readBlock_eq] at h
  split at h
  · cases h; simp
  · cases h

/-- Execution changes only the registers that the instruction's rule names. -/
theorem exec_keepsRegsBut {i : Instr} {s t : State} (h : exec i s = .next t) : KeepsRegsBut (writesRegs i) s t := by
  cases i
  case ldImm | addImm | ldReg | orReg | andReg | xorReg | ldVxDt | rnd => cases h; exact keepsRegsBut_setV s _ _
  case addReg | subReg | shr | subnReg | shl => cases h; exact keepsRegsBut_writeFlagged s _ _ _ _
  case drw =>
    obtain ⟨rows, -, rfl⟩ := execDrw_next h
    exact keepsRegsBut_setV { s with fb := _, redraw := true } vf _
  case ldVxKey =>
    obtain ⟨k, -, rfl⟩ | ⟨-, rfl⟩ := execLdVxKey_next h
    · exact keepsRegsBut_setV s _ _
    · exact fun r _ => rfl
  case load =>
    obtain ⟨bytes, hread, rfl⟩ := execLoad_next h
    exact keepsRegsBut_setRegBlock s _ (length_of_readBlock_ok hread)
  all_goals exact fun r _ => (exec_keepsBut h).getV_eq (by simp [writes]) r

/-- A block store keeps every byte outside the block. -/
theorem memRead_setMem_of_outside {s : State} {bytes : List Byte} {m : Memory} {a x : Nat}
    (hw : writeBlock s.mem a bytes = .ok m) (hx : x < a ∨ a + bytes.length ≤ x) :
    (s.setMem m).memRead x = s.memRead x := by
  have hread : m.read x = s.mem.read x := by rw [writeBlock_read hw, if_neg (by omega)]
  simp [State.memRead, memRead, hread]

/-- Execution keeps every byte outside the `storeCount i` bytes at `I`. -/
theorem exec_memRead_of_outside {i : Instr} {s t : State} (h : exec i s = .next t) {a : Nat}
    (ha : a < s.i.toNat ∨ s.i.toNat + storeCount i ≤ a) : t.memRead a = s.memRead a := by
  cases i
  case ldBVx =>
    obtain ⟨m, hw, rfl⟩ := execLdBVx_next h
    exact memRead_setMem_of_outside hw ha
  case dump =>
    obtain ⟨m, hw, rfl⟩ := execDump_next h
    exact memRead_setMem_of_outside hw (by rwa [State.regBlock_length])
  all_goals exact (exec_keepsBut h).memRead_eq (by simp [writes]) a

theorem State.writeFlagged_draws (s : State) (x : Reg) (named : Bool) (result flag : Byte) :
    (s.writeFlagged x named result flag).draws = if named = true then s.draws + 1 else s.draws := by
  obtain ⟨vs, h⟩ := State.writeFlagged_frame s x named result flag
  rw [h]

/-- Execution takes a draw exactly where the instruction reads one (R109, R140). -/
theorem exec_draws {i : Instr} {s t : State} (h : exec i s = .next t) :
    t.draws = if readsDraw i = true then s.draws + 1 else s.draws := by
  cases i
  case addReg | subReg | shr | subnReg | shl => cases h; exact State.writeFlagged_draws s _ _ _ _
  case rnd => cases h; rfl
  all_goals exact (exec_keepsBut h).draws_eq (by simp [writes])

/-! ## What a step leaves to the host -/

theorem key_notMem_writes (i : Instr) : Part.key ∉ writes i := by cases i <;> simp [writes]

theorem launch_notMem_writes (i : Instr) : Part.launch ∉ writes i := by cases i <;> simp [writes]

theorem st_mem_writes_iff (i : Instr) : Part.st ∈ writes i ↔ ∃ x, i = .ldStVx x := by cases i <;> simp [writes]

/-- Execution leaves `REDRAW` as it was or sets it (R41, R175). -/
theorem exec_redraw {i : Instr} {s t : State} (h : exec i s = .next t) : t.redraw = s.redraw ∨ t.redraw = true := by
  cases i
  case cls => cases h; exact .inr rfl
  case drw => obtain ⟨rows, -, rfl⟩ := execDrw_next h; exact .inr rfl
  all_goals exact .inl ((exec_keepsBut h).redraw_eq (by simp [writes]))

/-! ## The invariant -/

theorem toNat_add_two {a : Word} (ha : a.toNat + 1 < Config.memSize) : (a + 2).toNat = a.toNat + 2 := by
  simp only [Config.memSize] at ha
  bv_omega

/-- Execution from a fetched word's `PC + 2` leaves `PC` at most 0x10FE: a skip reaches 0x1002 at most, and only `BNNN`
goes further (R127, R128). -/
theorem exec_pc_le {i : Instr} {s t : State} (h : exec i s = .next t) (hlo : 2 ≤ s.pc.toNat)
    (hhi : s.pc.toNat ≤ 0x1000) (hstack : ∀ k : Fin 16, s.stack[k.val].toNat ≤ 0x1000) : t.pc.toNat ≤ 0x10FE := by
  obtain hkept | hskip | hback | ⟨nnn, hjp⟩ | ⟨nnn, b, hjpV0⟩ | ⟨k, hret⟩ := exec_pc h
  · rw [hkept]; omega
  · bv_omega
  · bv_omega
  · rw [hjp]; bv_omega
  · rw [hjpV0]; bv_omega
  · rw [hret]; exact (hstack k).trans (by decide)

/-- Execution from `PC` at most 0x1000 stores no more in a stack cell (R120, R122). -/
theorem exec_stack_le {i : Instr} {s t : State} (h : exec i s = .next t) (hpc : s.pc.toNat ≤ 0x1000)
    (hstack : ∀ k : Fin 16, s.stack[k.val].toNat ≤ 0x1000) (j : Fin 16) : t.stack[j.val].toNat ≤ 0x1000 := by
  obtain hkept | ⟨k, hpush⟩ := exec_stack h
  · simpa only [hkept] using hstack j
  · rw [hpush j]
    split
    · exact hpc
    · exact hstack j

theorem exec_mem_wf {i : Instr} {s t : State} (h : exec i s = .next t) (hmem : s.mem.wf = true) : t.mem.wf = true := by
  obtain hkept | ⟨bytes, hw⟩ := exec_mem h
  · rwa [hkept]
  · exact writeBlock_wf hw hmem

/-- Execution from the state of a fetched instruction keeps the invariant. -/
theorem exec_keeps_inv {i : Instr} {s t : State} (h : exec i s = .next t) (hs : s.Inv) (hlo : 2 ≤ s.pc.toNat)
    (hhi : s.pc.toNat ≤ 0x1000) : t.Inv := by
  obtain ⟨hmem, -, hstack, hkey⟩ := hs
  refine ⟨exec_mem_wf h hmem, exec_pc_le h hlo hhi hstack, exec_stack_le h hhi hstack, ?_⟩
  rwa [(exec_keepsBut h).key_eq (key_notMem_writes i)]

theorem decayDelay_inv_iff (s : State) : s.decayDelay.Inv ↔ s.Inv := by simp [State.Inv]

/-- The state in which a fetched instruction executes meets the invariant. -/
theorem beginExecute_inv {s : State} (hs : s.Inv) (hpc : s.pc.toNat + 1 < Config.memSize) : s.beginExecute.Inv := by
  obtain ⟨hmem, -, hstack, hkey⟩ := hs
  refine ⟨hmem, ?_, hstack, hkey⟩
  rw [State.beginExecute_pc, toNat_add_two hpc]
  simp only [Config.memSize] at hpc
  omega

/-! ## `REDRAW` and `ST` are invisible -/

/-- The state with another `REDRAW` and another `ST`. -/
def State.withRedrawSt (s : State) (redraw : Bool) (st : Byte) : State := { s with redraw := redraw, st := st }

/-- The outcome with another `REDRAW` and another `ST` in its next state; a fault or a refusal holds neither. -/
def withRedrawStNext (redraw : Bool) (st : Byte) : Host.Outcome State Fault Refusal → Host.Outcome State Fault Refusal
  | .next t => .next (t.withRedrawSt redraw st)
  | .fault f => .fault f
  | .refused why => .refused why

theorem State.writeFlagged_withRedrawSt (s : State) (redraw : Bool) (st : Byte) (x : Reg) (named : Bool)
    (result flag : Byte) :
    (s.withRedrawSt redraw st).writeFlagged x named result flag =
      (s.writeFlagged x named result flag).withRedrawSt redraw st := by
  cases named
  · rfl
  · simp only [State.writeFlagged, State.vfOperand, if_true]
    split <;> rfl

theorem State.skipIf_withRedrawSt (s : State) (redraw : Bool) (st : Byte) (c : Bool) :
    (s.withRedrawSt redraw st).skipIf c = (s.skipIf c).withRedrawSt redraw st := by cases c <;> rfl

theorem State.decayDelay_withRedrawSt (s : State) (redraw : Bool) (st : Byte) :
    (s.withRedrawSt redraw st).decayDelay = s.decayDelay.withRedrawSt redraw st := by
  unfold State.decayDelay
  by_cases h : s.dt ≠ 0
  · rw [if_pos h]; exact if_pos h
  · rw [if_neg h]; exact if_neg h

theorem State.push_withRedrawSt (s : State) (redraw : Bool) (st : Byte) (w : Word) :
    (s.withRedrawSt redraw st).push w = (s.push w).map (·.withRedrawSt redraw st) := by
  unfold State.push
  by_cases h : s.sp.val < 16
  · simp [h, State.withRedrawSt]
  · simp [h, State.withRedrawSt]

theorem State.pop_withRedrawSt (s : State) (redraw : Bool) (st : Byte) :
    (s.withRedrawSt redraw st).pop = s.pop.map (Prod.map id (·.withRedrawSt redraw st)) := by
  unfold State.pop
  by_cases h : 0 < s.sp.val
  · simp [h, State.withRedrawSt]
  · simp [h, State.withRedrawSt]

@[simp] theorem State.withRedrawSt_i (s : State) (redraw : Bool) (st : Byte) :
    (s.withRedrawSt redraw st).i = s.i := rfl
@[simp] theorem State.withRedrawSt_pc (s : State) (redraw : Bool) (st : Byte) :
    (s.withRedrawSt redraw st).pc = s.pc := rfl
@[simp] theorem State.withRedrawSt_mem (s : State) (redraw : Bool) (st : Byte) :
    (s.withRedrawSt redraw st).mem = s.mem := rfl
@[simp] theorem State.withRedrawSt_status (s : State) (redraw : Bool) (st : Byte) :
    (s.withRedrawSt redraw st).status = s.status := rfl
@[simp] theorem State.withRedrawSt_phase (s : State) (redraw : Bool) (st : Byte) :
    (s.withRedrawSt redraw st).phase = s.phase := rfl
@[simp] theorem State.getV_withRedrawSt (s : State) (redraw : Bool) (st : Byte) (r : Reg) :
    (s.withRedrawSt redraw st).getV r = s.getV r := rfl
@[simp] theorem State.regBlock_withRedrawSt (s : State) (redraw : Bool) (st : Byte) (x : Reg) :
    (s.withRedrawSt redraw st).regBlock x = s.regBlock x := rfl
@[simp] theorem State.keyOperand_withRedrawSt (s : State) (redraw : Bool) (st : Byte) (x : Reg) :
    (s.withRedrawSt redraw st).keyOperand x = s.keyOperand x := rfl
@[simp] theorem State.scanKeys_withRedrawSt (s : State) (redraw : Bool) (st : Byte) :
    (s.withRedrawSt redraw st).scanKeys = s.scanKeys := rfl

/-- Execution reads neither `REDRAW` nor `ST`: changing them before it changes at most them after it. -/
theorem exec_withRedrawSt (i : Instr) (s : State) (redraw : Bool) (st : Byte) :
    ∃ redraw' st', exec i (s.withRedrawSt redraw st) = withRedrawStNext redraw' st' (exec i s) := by
  cases i
  case cls => exact ⟨true, st, rfl⟩
  case ldStVx x => exact ⟨redraw, s.getV x, rfl⟩
  case drw x y n =>
    refine ⟨true, st, ?_⟩
    simp only [exec, execDrw, State.withRedrawSt_mem, State.withRedrawSt_i]
    cases readBlock s.mem s.i.toNat n.toNat <;> rfl
  all_goals refine ⟨redraw, st, ?_⟩
  case ret =>
    simp only [exec, execRet, State.pop_withRedrawSt]
    cases s.pop <;> rfl
  case call nnn =>
    simp only [exec, execCall, State.push_withRedrawSt, State.withRedrawSt_pc]
    cases s.push s.pc <;> rfl
  case addReg | subReg | shr | subnReg | shl =>
    exact congrArg Host.Outcome.next (State.writeFlagged_withRedrawSt s redraw st _ _ _ _)
  case seImm | sneImm | seReg | sneReg =>
    exact congrArg Host.Outcome.next (State.skipIf_withRedrawSt s redraw st _)
  case skp x =>
    simp only [exec, execSkp, State.keyOperand_withRedrawSt]
    cases s.keyOperand x with
    | none => rfl
    | some k => exact congrArg Host.Outcome.next (State.skipIf_withRedrawSt s redraw st _)
  case sknp x =>
    simp only [exec, execSknp, State.keyOperand_withRedrawSt]
    cases s.keyOperand x with
    | none => rfl
    | some k => exact congrArg Host.Outcome.next (State.skipIf_withRedrawSt s redraw st _)
  case ldVxKey x =>
    simp only [exec, execLdVxKey, State.scanKeys_withRedrawSt]
    cases s.scanKeys <;> rfl
  case addIVx x =>
    simp only [exec, execAddIVx, State.withRedrawSt_i, State.getV_withRedrawSt]
    rw [apply_ite (withRedrawStNext redraw st)]
    rfl
  case ldBVx x =>
    simp only [exec, execLdBVx, State.withRedrawSt_mem, State.withRedrawSt_i, State.getV_withRedrawSt]
    cases writeBlock s.mem s.i.toNat (bcdDigits (s.getV x)) <;> rfl
  case dump x =>
    simp only [exec, execDump, State.withRedrawSt_mem, State.withRedrawSt_i, State.regBlock_withRedrawSt]
    cases writeBlock s.mem s.i.toNat (s.regBlock x) <;> rfl
  case load x =>
    simp only [exec, execLoad, State.withRedrawSt_mem, State.withRedrawSt_i]
    cases readBlock s.mem s.i.toNat (x.val + 1) <;> rfl
  all_goals rfl

theorem endStep_withRedrawStNext (redraw : Bool) (st : Byte) (o : Host.Outcome State Fault Refusal) :
    endStep (withRedrawStNext redraw st o) = withRedrawStNext redraw st (endStep o) := by
  cases o with
  | next t => exact congrArg Host.Outcome.next (State.decayDelay_withRedrawSt t redraw st)
  | fault _ => rfl
  | refused _ => rfl

theorem runWord_withRedrawSt (w : Word) (s : State) (redraw : Bool) (st : Byte) :
    ∃ redraw' st', runWord w (s.withRedrawSt redraw st) = withRedrawStNext redraw' st' (runWord w s) := by
  simp only [runWord]
  cases decode w
  case unknown => exact ⟨redraw, st, rfl⟩
  case insn i =>
    obtain ⟨redraw', st', h⟩ := exec_withRedrawSt i s.beginExecute redraw st
    exact ⟨redraw', st', (congrArg endStep h).trans (endStep_withRedrawStNext redraw' st' _)⟩

theorem cycle_withRedrawSt (s : State) (redraw : Bool) (st : Byte) :
    ∃ redraw' st', cycle (s.withRedrawSt redraw st) = withRedrawStNext redraw' st' (cycle s) := by
  simp only [cycle, State.withRedrawSt_mem, State.withRedrawSt_pc]
  cases fetch s.mem s.pc
  case error => exact ⟨redraw, st, rfl⟩
  case ok w => exact runWord_withRedrawSt w s redraw st

/-- A step reads neither `REDRAW` nor `ST`: changing them before it changes at most them after it. -/
theorem step_withRedrawSt (s : State) (redraw : Bool) (st : Byte) :
    ∃ redraw' st', step (s.withRedrawSt redraw st) = withRedrawStNext redraw' st' (step s) := by
  simp only [step, State.withRedrawSt_status, State.withRedrawSt_phase]
  cases s.status
  case faulted => exact ⟨redraw, st, rfl⟩
  case running =>
    cases s.phase
    case reset | loadFailed => exact ⟨redraw, st, rfl⟩
    case loaded | stepping => exact cycle_withRedrawSt s redraw st

/-! ## Reset -/

theorem reset_memRead (a : Nat) :
    State.reset.memRead a = if a < 4096 then some (Memory.unlisted a) else none := rfl

/-- A font address that nothing has written reads as its font byte (R66). -/
theorem unlisted_of_lt_font {a : Nat} (ha : a < 80) : some (Memory.unlisted a) = font[a]? := by
  rw [Memory.unlisted, List.getD_eq_getElem font 0 ha, List.getElem?_eq_getElem (l := font) ha]

theorem unlisted_of_font_le {a : Nat} (ha : 80 ≤ a) : Memory.unlisted a = 0 := List.getD_eq_default font 0 ha

end Sys2Proof.Machine

namespace Sys2Proof.Proofs

open Sys2Proof.Machine

/-- Settles O16: a step that completes fetched inside memory, so the instruction executes at `PC` between 2 and 0x1000,
where execution keeps the invariant; the decay of `DT` touches none of it. -/
theorem stepKeepsInvariant : Obligations.StepKeepsInvariant := by
  unfold Obligations.StepKeepsInvariant
  intro s t hs hstep
  obtain ⟨-, w, i, u, hfetch, -, hexec, rfl⟩ := step_next_inv hstep
  obtain ⟨hpc, -⟩ := fetch_ok hfetch
  have hbegin : s.beginExecute.pc.toNat = s.pc.toNat + 2 := toNat_add_two hpc
  simp only [Config.memSize] at hpc
  exact (decayDelay_inv_iff u).2 (exec_keeps_inv hexec (beginExecute_inv hs hpc) (by omega) (by omega))

/-- Settles O13: no instruction's rule names the keys, `STATUS` or `PHASE`, and only `FX18`'s names `ST`. -/
theorem stepLeavesHostSideAlone : Obligations.StepLeavesHostSideAlone := by
  unfold Obligations.StepLeavesHostSideAlone
  intro s t hstep
  obtain ⟨⟨hrunning, -⟩, w, i, u, hfetch, hdecode, hexec, rfl⟩ := step_next_inv hstep
  have hframe : KeepsBut (writes i) s.beginExecute u := exec_keepsBut hexec
  obtain ⟨hstatus, hphase⟩ := hframe.launch_eq (launch_notMem_writes i)
  simp only [State.decayDelay_key, State.decayDelay_redraw, State.decayDelay_status, State.decayDelay_phase,
    State.decayDelay_st]
  refine ⟨hframe.key_eq (key_notMem_writes i), fun hset => ?_, hstatus.trans hrunning, hphase, fun hst => ?_⟩
  · obtain hkept | hset' := exec_redraw hexec
    · exact hkept.trans hset
    · exact hset'
  · have hwritten : Part.st ∈ writes i := not_imp_comm.1 hframe.st_eq hst
    obtain ⟨x, rfl⟩ := (st_mem_writes_iff i).1 hwritten
    exact ⟨w, x, hfetch, hdecode⟩

/-- Settles O14: the frame of each instruction over parts, registers, bytes and draws. -/
theorem execWritesOnlyWhatItsRuleNames : Obligations.ExecWritesOnlyWhatItsRuleNames := by
  unfold Obligations.ExecWritesOnlyWhatItsRuleNames
  intro i s t h
  exact ⟨exec_keepsBut h, exec_keepsRegsBut h, fun _ ha => exec_memRead_of_outside h ha, exec_draws h⟩

/-- Settles O50: the step from the changed state is the step from the other one, up to `REDRAW` and `ST`. -/
theorem redrawAndSoundAreInvisible : Obligations.RedrawAndSoundAreInvisible := by
  unfold Obligations.RedrawAndSoundAreInvisible
  intro s redraw st
  obtain ⟨redraw', st', h⟩ := step_withRedrawSt s redraw st
  refine ⟨fun t ht => ⟨t.withRedrawSt redraw' st', ?_, rfl⟩, fun f hf => ?_, fun why hwhy => ?_⟩
  · rw [ht] at h; exact h
  · rw [hf] at h; exact h
  · rw [hwhy] at h; exact h

/-- Settles O17: Reset lists no memory, starts at 0x200, and zeroes the stack and the keys. -/
theorem resetMeetsInvariant : Obligations.ResetMeetsInvariant := by
  unfold Obligations.ResetMeetsInvariant State.Inv
  refine ⟨reset_mem_wf, by decide, fun k => ?_, fun k => .inl ?_⟩
  · simp [State.reset]
  · simp [State.reset]

/-- Settles O19: every named field of the reset state is zero, `PC` apart. -/
theorem resetZeroesRegisters : Obligations.ResetZeroesRegisters := by
  unfold Obligations.ResetZeroesRegisters
  refine ⟨fun x => ?_, rfl, rfl, fun k => ?_, rfl, rfl, rfl, fun x y _ _ => ?_, fun k => ?_⟩
  · simp [State.getV, State.reset]
  · simp [State.reset]
  · simp [State.pixel, fbCell, State.reset]
  · simp [State.reset]

/-- Settles O20: reset memory lists nothing, so a byte is the font's below 80, 0 from there on, and none at 4096. -/
theorem resetMemoryAndLaunch : Obligations.ResetMemoryAndLaunch := by
  unfold Obligations.ResetMemoryAndLaunch
  refine ⟨fun a ha => ?_, fun a hlo hhi => ?_, fun a ha => ?_, rfl, rfl, rfl⟩
  · rw [reset_memRead, if_pos (by omega), unlisted_of_lt_font ha]
  · rw [reset_memRead, if_pos hhi, unlisted_of_font_le hlo]
  · rw [reset_memRead, if_neg (by omega)]

end Sys2Proof.Proofs
end

section
/-! SUPPORT. What a completed register dump leaves in memory (20_memory.md R65, R72; R215), and the statement of
20_memory.md settled from it. -/

namespace Sys2Proof.Machine

/-- A block store that succeeds lies inside memory (R65). -/
theorem writeBlock_ok_fits {bs : List Byte} {m m' : Memory} {a : Nat} (h : writeBlock m a bs = .ok m') :
    bs.length = 0 ∨ a + bs.length ≤ Config.memSize := by
  by_contra hout
  rw [(writeBlock_error_iff bs m a).2 hout] at h
  cases h

/-- A register dump that completes lies inside memory (R215, R233). -/
theorem execDump_fits {x : Reg} {s t : State} (h : execDump x s = .next t) :
    s.i.toNat + (x.val + 1) ≤ Config.memSize := by
  obtain ⟨m, hw, -⟩ := execDump_next h
  have hfits := writeBlock_ok_fits hw
  rw [State.regBlock_length] at hfits
  exact hfits.resolve_left (Nat.succ_ne_zero _)

/-- After a register dump, memory reads as `V[r]` at `I + r` (R215). -/
theorem execDump_read {x r : Reg} {s t : State} (h : execDump x s = .next t) (hr : r ≤ x) :
    t.mem.read (s.i.toNat + r.val) = s.getV r := by
  obtain ⟨m, hw, rfl⟩ := execDump_next h
  have hlt : r.val < x.val + 1 := Nat.lt_succ_of_le hr
  rw [State.setMem_mem, writeBlock_read hw, State.regBlock_length, if_pos (by omega), Nat.add_sub_cancel_left,
    State.regBlock_getD s x r hr]

end Sys2Proof.Machine

namespace Sys2Proof.Proofs

open Sys2Proof.Machine

/-- Settles O49: a dump of two or more registers that completes has `I` and `I + 1` inside memory, so the fetch succeeds,
and the two bytes it reads are the stored `V0` and `V1`. -/
theorem storeIsSeenByTheNextFetch : Obligations.StoreIsSeenByTheNextFetch := by
  unfold Obligations.StoreIsSeenByTheNextFetch
  intro x s t hx hexec
  have hdump : execDump x s = .next t := hexec
  have hfits := execDump_fits hdump
  have hhigh : t.mem.read s.i.toNat = s.getV 0 := execDump_read (r := 0) hdump (Fin.zero_le x)
  have hlow : t.mem.read (s.i.toNat + 1) = s.getV 1 := execDump_read (r := 1) hdump (Fin.le_def.2 hx)
  rw [fetch_eq, if_pos (by omega), hhigh, hlow]

end Sys2Proof.Proofs
end

section
/-! SUPPORT. The decoder and the encoder are inverse to each other, the decoder agrees with the opcode table row by row,
and the illegal words group by group (30_encoding.md R80-R92); the statements of 30_encoding.md settled from them. -/

namespace Sys2Proof.Laws.EncodesRow

theorem of_instr : ∀ i : Instr, Statement i
  | .cls => cls | .ret => ret | .jp nnn => jp nnn | .call nnn => call nnn | .seImm x kk => seImm x kk
  | .sneImm x kk => sneImm x kk | .seReg x y => seReg x y | .ldImm x kk => ldImm x kk | .addImm x kk => addImm x kk
  | .ldReg x y => ldReg x y | .orReg x y => orReg x y | .andReg x y => andReg x y | .xorReg x y => xorReg x y
  | .addReg x y => addReg x y | .subReg x y => subReg x y | .shr x y => shr x y | .subnReg x y => subnReg x y
  | .shl x y => shl x y | .sneReg x y => sneReg x y | .ldI nnn => ldI nnn | .jpV0 nnn => jpV0 nnn
  | .rnd x kk => rnd x kk | .drw x y n => drw x y n | .skp x => skp x | .sknp x => sknp x | .ldVxDt x => ldVxDt x
  | .ldVxKey x => ldVxKey x | .ldDtVx x => ldDtVx x | .ldStVx x => ldStVx x | .addIVx x => addIVx x
  | .ldFVx x => ldFVx x | .ldBVx x => ldBVx x | .dump x => dump x | .load x => load x

end Sys2Proof.Laws.EncodesRow

namespace Sys2Proof

/-! ## A word put together again, where its fixed fields are known (R81, R82) -/

theorem formatNnn_eq_self {op : BitVec 4} {w : Word} (hop : fieldOp w = op) : formatNnn op (fieldNnn w) = w := by
  subst hop
  exact formatNnn_fields w

theorem formatXkk_eq_self {op : BitVec 4} {w : Word} (hop : fieldOp w = op) :
    formatXkk op (fieldX w) (fieldKk w) = w := by
  subst hop
  exact formatXkk_fields w

theorem formatXkk_sub_eq_self {op : BitVec 4} {sub : Byte} {w : Word} (hop : fieldOp w = op) (hsub : fieldKk w = sub) :
    formatXkk op (fieldX w) sub = w := by
  subst hsub
  exact formatXkk_eq_self hop

theorem formatXyn_eq_self {op : BitVec 4} {w : Word} (hop : fieldOp w = op) :
    formatXyn op (fieldX w) (fieldY w) (fieldN w) = w := by
  subst hop
  exact formatXyn_fields w

theorem formatXyn_sub_eq_self {op : BitVec 4} {sub : Nibble} {w : Word} (hop : fieldOp w = op) (hsub : fieldN w = sub) :
    formatXyn op (fieldX w) (fieldY w) sub = w := by
  subst hsub
  exact formatXyn_eq_self hop

/-! ## Decode after encode -/

/-- Decoding gives back every instruction that exists (R88, R92). -/
theorem decodeWith_encode {hasAnnn : Bool} {i : Instr} (hi : i.wellFormedWith hasAnnn = true) :
    decodeWith hasAnnn (encode i) = .insn i := by
  cases i with
  | cls | ret => rfl
  | jp nnn | call nnn | jpV0 nnn => simp [encode, decodeWith]
  | ldI nnn =>
    have hannn : hasAnnn = true := hi
    simp [encode, decodeWith, hannn]
  | seImm x kk | sneImm x kk | ldImm x kk | addImm x kk | rnd x kk => simp [encode, decodeWith]
  | seReg x y | sneReg x y | drw x y n => simp [encode, decodeWith]
  | ldReg x y | orReg x y | andReg x y | xorReg x y | addReg x y | subReg x y | shr x y | subnReg x y | shl x y =>
    simp [encode, decodeWith, decodeGroup8]
  | skp x | sknp x => simp [encode, decodeWith, decodeGroupE]
  | ldVxDt x | ldVxKey x | ldDtVx x | ldStVx x | addIVx x | ldFVx x | ldBVx x | dump x | load x =>
    simp [encode, decodeWith, decodeGroupF]

/-! ## Encode after decode -/

/-- What decoding a word answers accounts for that word: the instruction exists and encodes to the word, or the word named
is the word itself (R92, R103). -/
def Decoded.AccountsFor (hasAnnn : Bool) (w : Word) : Decoded → Prop
  | .insn i => encode i = w ∧ i.wellFormedWith hasAnnn = true
  | .unknown w' => w' = w

theorem decodeGroup0_accountsFor (hasAnnn : Bool) (w : Word) : (decodeGroup0 w).AccountsFor hasAnnn w := by
  unfold decodeGroup0
  split
  · exact ⟨Eq.symm ‹_›, rfl⟩
  · split
    · exact ⟨Eq.symm ‹_›, rfl⟩
    · rfl

theorem decodeGroup8_accountsFor {hasAnnn : Bool} {w : Word} (hop : fieldOp w = 0x8#4) :
    (decodeGroup8 w).AccountsFor hasAnnn w := by
  unfold decodeGroup8
  split
  case h_10 => rfl
  all_goals exact ⟨formatXyn_sub_eq_self hop ‹_›, rfl⟩

theorem decodeGroupE_accountsFor {hasAnnn : Bool} {w : Word} (hop : fieldOp w = 0xE#4) :
    (decodeGroupE w).AccountsFor hasAnnn w := by
  unfold decodeGroupE
  split
  case h_3 => rfl
  all_goals exact ⟨formatXkk_sub_eq_self hop ‹_›, rfl⟩

theorem decodeGroupF_accountsFor {hasAnnn : Bool} {w : Word} (hop : fieldOp w = 0xF#4) :
    (decodeGroupF w).AccountsFor hasAnnn w := by
  unfold decodeGroupF
  split
  case h_10 => rfl
  all_goals exact ⟨formatXkk_sub_eq_self hop ‹_›, rfl⟩

/-- The cases are the arms of the map by opcode group, in the order of R84. -/
theorem decodeWith_accountsFor (hasAnnn : Bool) (w : Word) : (decodeWith hasAnnn w).AccountsFor hasAnnn w := by
  unfold decodeWith
  split
  case h_1 => exact decodeGroup0_accountsFor hasAnnn w
  case h_2 | h_3 | h_12 => exact ⟨formatNnn_eq_self ‹_›, rfl⟩
  case h_4 | h_5 | h_7 | h_8 | h_13 => exact ⟨formatXkk_eq_self ‹_›, rfl⟩
  case h_6 | h_10 =>
    split
    · exact ⟨formatXyn_sub_eq_self ‹_› ‹_›, rfl⟩
    · rfl
  case h_9 => exact decodeGroup8_accountsFor ‹_›
  case h_11 =>
    split
    · exact ⟨formatNnn_eq_self ‹_›, ‹_›⟩
    · rfl
  case h_14 => exact ⟨formatXyn_eq_self ‹_›, rfl⟩
  case h_15 => exact decodeGroupE_accountsFor ‹_›
  case h_16 =>
    simp only [imp_false] at *
    exact decodeGroupF_accountsFor (by bv_omega)

/-- Decoding and encoding are inverse to each other (R88, R92). -/
theorem decodeWith_eq_insn_iff {hasAnnn : Bool} {w : Word} {i : Instr} :
    decodeWith hasAnnn w = .insn i ↔ encode i = w ∧ i.wellFormedWith hasAnnn = true := by
  constructor
  · intro h
    have haccounts := decodeWith_accountsFor hasAnnn w
    rwa [h] at haccounts
  · rintro ⟨rfl, hi⟩
    exact decodeWith_encode hi

/-- Under the default of `HAS_ANNN`, every instruction exists (D4). -/
theorem Instr.wellFormed_eq_true (i : Instr) : i.wellFormed = true := by cases i <;> rfl

theorem decode_eq_insn_iff {w : Word} {i : Instr} : decode w = .insn i ↔ encode i = w ∧ i.wellFormed = true :=
  decodeWith_eq_insn_iff

/-- A word that decodes to no instruction is named as it is (R103). -/
theorem eq_of_decode_eq_unknown {w w' : Word} (h : decode w = .unknown w') : w' = w := by
  have haccounts := decodeWith_accountsFor Config.hasAnnn w
  rwa [← decode, h] at haccounts

/-! ## The illegal words (R85-R87, R89) -/

theorem decodeGroup0_eq_unknown_iff (w : Word) :
    decodeGroup0 w = .unknown w ↔ w ≠ 0x00E0#16 ∧ w ≠ 0x00EE#16 := by
  unfold decodeGroup0
  split
  · simp [*]
  · split <;> simp [*]

theorem decodeGroup8_eq_unknown_iff (w : Word) :
    decodeGroup8 w = .unknown w ↔ fieldN w ∈ [0x8#4, 0x9#4, 0xA#4, 0xB#4, 0xC#4, 0xD#4, 0xF#4] := by
  unfold decodeGroup8
  split
  case h_10 =>
    simp only [imp_false] at *
    simp only [List.mem_cons, List.not_mem_nil, or_false, true_iff]
    bv_omega
  all_goals simp [*]

theorem decodeGroupE_eq_unknown_iff (w : Word) :
    decodeGroupE w = .unknown w ↔ fieldKk w ∉ [0x9E#8, 0xA1#8] := by
  unfold decodeGroupE
  split
  case h_3 =>
    simp only [imp_false] at *
    simp [*]
  all_goals simp [*]

theorem decodeGroupF_eq_unknown_iff (w : Word) :
    decodeGroupF w = .unknown w ↔
      fieldKk w ∉ [0x07#8, 0x0A#8, 0x15#8, 0x18#8, 0x1E#8, 0x29#8, 0x33#8, 0x55#8, 0x65#8] := by
  unfold decodeGroupF
  split
  case h_10 =>
    simp only [imp_false] at *
    simp [*]
  all_goals simp [*]

/-- Under the default of `HAS_ANNN`, the groups with illegal words are 0, 5, 8, 9, E and F (R84, R89, D4). -/
theorem decode_eq_unknown_iff (w : Word) :
    decode w = .unknown w ↔
      (fieldOp w = 0x0#4 ∧ decodeGroup0 w = .unknown w) ∨ (fieldOp w = 0x5#4 ∧ fieldN w ≠ 0x0#4) ∨
      (fieldOp w = 0x8#4 ∧ decodeGroup8 w = .unknown w) ∨ (fieldOp w = 0x9#4 ∧ fieldN w ≠ 0x0#4) ∨
      (fieldOp w = 0xE#4 ∧ decodeGroupE w = .unknown w) ∨ (fieldOp w = 0xF#4 ∧ decodeGroupF w = .unknown w) := by
  unfold decode decodeWith
  split
  case h_16 =>
    simp only [imp_false] at *
    have hop : fieldOp w = 0xF#4 := by bv_omega
    simp [hop]
  case h_11 => simp [*, Config.hasAnnn]
  all_goals simp [*]

/-! ## The opcode table (R88) -/

@[simp] theorem fieldOp_and (w m : Word) : fieldOp (w &&& m) = fieldOp w &&& fieldOp m := BitVec.extractLsb'_and

@[simp] theorem fieldN_and (w m : Word) : fieldN (w &&& m) = fieldN w &&& fieldN m := BitVec.extractLsb'_and

@[simp] theorem fieldKk_and (w m : Word) : fieldKk (w &&& m) = fieldKk w &&& fieldKk m := BitVec.extractLsb'_and

/-! A mask that has every bit of a field fixes the field. -/

theorem fieldOp_eq_of_and_eq {w m v : Word} (h : w &&& m = v) (hm : fieldOp m = BitVec.allOnes 4) :
    fieldOp w = fieldOp v := by
  rw [← h, fieldOp_and, hm, BitVec.and_allOnes]

theorem fieldN_eq_of_and_eq {w m v : Word} (h : w &&& m = v) (hm : fieldN m = BitVec.allOnes 4) :
    fieldN w = fieldN v := by
  rw [← h, fieldN_and, hm, BitVec.and_allOnes]

theorem fieldKk_eq_of_and_eq {w m v : Word} (h : w &&& m = v) (hm : fieldKk m = BitVec.allOnes 8) :
    fieldKk w = fieldKk v := by
  rw [← h, fieldKk_and, hm, BitVec.and_allOnes]

/-! A word that matches a row is put together from the row's fixed fields and the word's own operands, one lemma for each
format and mask of the table (R82, R88). -/

theorem formatNnn_of_matches {op : BitVec 4} {v w : Word} (hop : fieldOp v = op := by decide)
    (h : w &&& 0xF000#16 = v) : formatNnn op (fieldNnn w) = w :=
  formatNnn_eq_self ((fieldOp_eq_of_and_eq h (by decide)).trans hop)

theorem formatXkk_of_matches {op : BitVec 4} {v w : Word} (hop : fieldOp v = op := by decide)
    (h : w &&& 0xF000#16 = v) : formatXkk op (fieldX w) (fieldKk w) = w :=
  formatXkk_eq_self ((fieldOp_eq_of_and_eq h (by decide)).trans hop)

theorem formatXyn_of_matches {op : BitVec 4} {v w : Word} (hop : fieldOp v = op := by decide)
    (h : w &&& 0xF000#16 = v) : formatXyn op (fieldX w) (fieldY w) (fieldN w) = w :=
  formatXyn_eq_self ((fieldOp_eq_of_and_eq h (by decide)).trans hop)

theorem formatXyn_sub_of_matches {op : BitVec 4} {sub : Nibble} {v w : Word} (hop : fieldOp v = op := by decide)
    (hsub : fieldN v = sub := by decide) (h : w &&& 0xF00F#16 = v) : formatXyn op (fieldX w) (fieldY w) sub = w :=
  formatXyn_sub_eq_self ((fieldOp_eq_of_and_eq h (by decide)).trans hop)
    ((fieldN_eq_of_and_eq h (by decide)).trans hsub)

theorem formatXkk_sub_of_matches {op : BitVec 4} {sub : Byte} {v w : Word} (hop : fieldOp v = op := by decide)
    (hsub : fieldKk v = sub := by decide) (h : w &&& 0xF0FF#16 = v) : formatXkk op (fieldX w) sub = w :=
  formatXkk_sub_eq_self ((fieldOp_eq_of_and_eq h (by decide)).trans hop)
    ((fieldKk_eq_of_and_eq h (by decide)).trans hsub)

theorem eq_of_full_mask {v w : Word} (h : w &&& 0xFFFF#16 = v) : v = w := by
  rw [← h]
  exact BitVec.and_allOnes

/-- The instructions of the 34 rows of R88, in the table's order, with the operands that a word's fields hold. -/
def rowInstrs (w : Word) : List Instr :=
  [.cls, .ret, .jp (fieldNnn w), .call (fieldNnn w), .seImm (fieldX w) (fieldKk w), .sneImm (fieldX w) (fieldKk w),
   .seReg (fieldX w) (fieldY w), .ldImm (fieldX w) (fieldKk w), .addImm (fieldX w) (fieldKk w),
   .ldReg (fieldX w) (fieldY w), .orReg (fieldX w) (fieldY w), .andReg (fieldX w) (fieldY w),
   .xorReg (fieldX w) (fieldY w), .addReg (fieldX w) (fieldY w), .subReg (fieldX w) (fieldY w),
   .shr (fieldX w) (fieldY w), .subnReg (fieldX w) (fieldY w), .shl (fieldX w) (fieldY w), .sneReg (fieldX w) (fieldY w),
   .ldI (fieldNnn w), .jpV0 (fieldNnn w), .rnd (fieldX w) (fieldKk w), .drw (fieldX w) (fieldY w) (fieldN w),
   .skp (fieldX w), .sknp (fieldX w), .ldVxDt (fieldX w), .ldVxKey (fieldX w), .ldDtVx (fieldX w), .ldStVx (fieldX w),
   .addIVx (fieldX w), .ldFVx (fieldX w), .ldBVx (fieldX w), .dump (fieldX w), .load (fieldX w)]

theorem map_rowIndex_rowInstrs (w : Word) : (rowInstrs w).map Instr.rowIndex = List.range 34 := rfl

theorem rowIndex_rowInstrs {w : Word} {k : Nat} (hk : k < (rowInstrs w).length) : (rowInstrs w)[k].rowIndex = k := by
  have h : ((rowInstrs w).map Instr.rowIndex)[k]'(by rwa [List.length_map]) = k := by
    simp only [map_rowIndex_rowInstrs, List.getElem_range]
  rwa [List.getElem_map] at h

/-- A word that matches a row is the encoding of the row's instruction with the word's own operands; the proof names each
row's format. -/
theorem encode_rowInstrs (w : Word) :
    List.Forall₂ (fun (row : OpcodeRow) i => row.matches w = true → encode i = w) opcodeTable (rowInstrs w) := by
  simp only [opcodeTable, rowInstrs, List.cons_append, List.nil_append, List.forall₂_cons,
    List.forall₂_nil_left_iff, OpcodeRow.matches, beq_iff_eq]
  exact ⟨eq_of_full_mask, eq_of_full_mask, formatNnn_of_matches, formatNnn_of_matches, formatXkk_of_matches,
    formatXkk_of_matches, formatXyn_sub_of_matches, formatXkk_of_matches, formatXkk_of_matches,
    formatXyn_sub_of_matches, formatXyn_sub_of_matches, formatXyn_sub_of_matches, formatXyn_sub_of_matches,
    formatXyn_sub_of_matches, formatXyn_sub_of_matches, formatXyn_sub_of_matches, formatXyn_sub_of_matches,
    formatXyn_sub_of_matches, formatXyn_sub_of_matches, formatNnn_of_matches, formatNnn_of_matches,
    formatXkk_of_matches, formatXyn_of_matches, formatXkk_sub_of_matches, formatXkk_sub_of_matches,
    formatXkk_sub_of_matches, formatXkk_sub_of_matches, formatXkk_sub_of_matches, formatXkk_sub_of_matches,
    formatXkk_sub_of_matches, formatXkk_sub_of_matches, formatXkk_sub_of_matches, formatXkk_sub_of_matches,
    formatXkk_sub_of_matches, trivial⟩

/-- A word that matches a row decodes to that row's instruction (R88). -/
theorem decode_of_matches {w : Word} {k : Nat} {row : OpcodeRow} (hrow : opcodeTable[k]? = some row)
    (hw : row.matches w = true) : ∃ i, decode w = .insn i ∧ i.rowIndex = k := by
  obtain ⟨hk, rfl⟩ := List.getElem?_eq_some_iff.1 hrow
  obtain ⟨hlen, hget⟩ := List.forall₂_iff_get.1 (encode_rowInstrs w)
  have hk' : k < (rowInstrs w).length := hlen ▸ hk
  have hencode : encode (rowInstrs w)[k] = w := hget k hk hk' hw
  exact ⟨(rowInstrs w)[k], decode_eq_insn_iff.2 ⟨hencode, Instr.wellFormed_eq_true _⟩, rowIndex_rowInstrs hk'⟩

/-- A word that decodes to an instruction matches the instruction's row (R88). -/
theorem matches_of_decode_eq_insn {w : Word} {i : Instr} (h : decode w = .insn i) :
    ∃ row, opcodeTable[i.rowIndex]? = some row ∧ row.matches w = true := by
  obtain ⟨rfl, -⟩ := decode_eq_insn_iff.1 h
  exact Laws.EncodesRow.of_instr i

/-- A word that matches no row is illegal (R89). -/
theorem decode_eq_unknown_of_no_match {w : Word} (h : ∀ row ∈ opcodeTable, row.matches w = false) :
    decode w = .unknown w := by
  cases hdecode : decode w with
  | unknown w' => rw [eq_of_decode_eq_unknown hdecode]
  | insn i =>
    obtain ⟨row, hrow, hw⟩ := matches_of_decode_eq_insn hdecode
    rw [h row (List.mem_of_getElem? hrow)] at hw
    cases hw

/-! ## `HAS_ANNN` (D4) -/

/-- The words `0xANNN` are those with the opcode A (R81). -/
theorem and_F000_eq_A000_iff (w : Word) : w &&& 0xF000#16 = 0xA000#16 ↔ fieldOp w = 0xA#4 := by
  constructor
  · intro h
    exact fieldOp_eq_of_and_eq h (by decide)
  · intro hop
    rw [← formatNnn_eq_self hop]
    exact beq_iff_eq.1 (Laws.EncodesRow.matches_nnn (fieldNnn w) (by decide))

theorem decodeWith_annn (hasAnnn : Bool) {w : Word} (hop : fieldOp w = 0xA#4) :
    decodeWith hasAnnn w = if hasAnnn then .insn (.ldI (fieldNnn w)) else .unknown w := by
  simp [decodeWith, hop]

theorem decodeWith_eq_of_ne_annn (a b : Bool) {w : Word} (hop : fieldOp w ≠ 0xA#4) :
    decodeWith a w = decodeWith b w := by
  unfold decodeWith
  split
  case h_11 => exact absurd ‹_› hop
  all_goals simp [*]

end Sys2Proof

namespace Sys2Proof.Proofs

/-- Settles O1: the word's opcode and sub-opcode lead the decoder back to the instruction's arm, and its fields to the
operands. -/
theorem decodeEncodeRoundTrip : Obligations.DecodeEncodeRoundTrip := by
  unfold Obligations.DecodeEncodeRoundTrip
  exact fun i hi => decode_eq_insn_iff.2 ⟨rfl, hi⟩

/-- Settles O2: each arm of the decoder fixes the fields that the arm's instruction encodes as constants. -/
theorem encodeDecodeRoundTrip : Obligations.EncodeDecodeRoundTrip := by
  unfold Obligations.EncodeDecodeRoundTrip
  exact fun w i => decode_eq_insn_iff.1

/-- Settles O3: an encoded word matches its row, and a word that matches a row is the encoding of an instruction of that
row. -/
theorem decodeFollowsOpcodeTable : Obligations.DecodeFollowsOpcodeTable := by
  unfold Obligations.DecodeFollowsOpcodeTable
  exact fun w => ⟨fun i => matches_of_decode_eq_insn, fun k row => decode_of_matches, decode_eq_unknown_of_no_match⟩

/-- Settles O4, opcode group by opcode group. -/
theorem illegalWordsAreExactlyThese : Obligations.IllegalWordsAreExactlyThese := by
  unfold Obligations.IllegalWordsAreExactlyThese
  refine ⟨fun w w' => eq_of_decode_eq_unknown, fun w => ?_⟩
  rw [decode_eq_unknown_iff, decodeGroup0_eq_unknown_iff, decodeGroup8_eq_unknown_iff, decodeGroupE_eq_unknown_iff,
    decodeGroupF_eq_unknown_iff]

/-- Settles O5: the decoder evaluated on each word. -/
theorem writtenOutWordsDecode : Obligations.WrittenOutWordsDecode := by
  unfold Obligations.WrittenOutWordsDecode
  decide

/-- Settles O6: only the arm of opcode A reads the parameter. -/
theorem hasAnnnDecidesOnlyAnnn : Obligations.HasAnnnDecidesOnlyAnnn := by
  unfold Obligations.HasAnnnDecidesOnlyAnnn
  intro w
  rw [Ne, and_F000_eq_A000_iff]
  refine ⟨fun hop => ⟨?_, ?_⟩, decodeWith_eq_of_ne_annn false true⟩
  · exact decodeWith_annn true hop
  · exact decodeWith_annn false hop

end Sys2Proof.Proofs
end

section
/-! SUPPORT. The single step as the execution of the instruction at `PC`, the decay of the delay timer, the wait for a
key as a run of steps, and what a draw can influence (40_step.md R100-R111, 44_keys_timers.md R193); the statements of
40_step.md settled from them. -/

namespace Sys2Proof.Machine

/-! ## The step in terms of fetch, decode and execution (R101-R107) -/

/-- An admitted step whose fetch fails faults at the address the fetch failed at (R101). -/
theorem step_of_fetch_error {s : State} {a : Nat} (hs : s.admitted) (hfetch : fetch s.mem s.pc = .error a) :
    step s = .fault (.memoryOutOfBounds a s.pc none) := by
  rw [step_of_admitted hs, cycle, hfetch]

/-- An admitted step whose word is unknown faults with the word and `pc0` (R103). -/
theorem step_of_decode_unknown {s : State} {w w' : Word} (hs : s.admitted) (hfetch : fetch s.mem s.pc = .ok w)
    (hdecode : decode w = .unknown w') : step s = .fault (.unknownInstruction w' s.pc) := by
  rw [step_of_admitted hs, cycle, hfetch]
  simp only [runWord, hdecode]

/-- An admitted step whose word decodes is the execution of the instruction, then the end of the step. -/
theorem step_of_decode {s : State} {w : Word} {i : Instr} (hs : s.admitted) (hfetch : fetch s.mem s.pc = .ok w)
    (hdecode : decode w = .insn i) : step s = endStep (exec i s.beginExecute) := by
  rw [step_of_admitted hs, cycle, hfetch]
  simp only [runWord, hdecode]

/-- A completed step of a known instruction executed it to a next state and decayed `DT`. -/
theorem step_next_of_decode {s t : State} {w : Word} {i : Instr} (hfetch : fetch s.mem s.pc = .ok w)
    (hdecode : decode w = .insn i) (hstep : step s = .next t) :
    ∃ u, exec i s.beginExecute = .next u ∧ t = u.decayDelay := by
  obtain ⟨-, w', i', u, hfetch', hdecode', hexec, ht⟩ := step_next_inv hstep
  obtain rfl : w = w' := Except.ok.inj (hfetch.symm.trans hfetch')
  obtain rfl : i = i' := Decoded.insn.inj (hdecode.symm.trans hdecode')
  exact ⟨u, hexec, ht⟩

/-- Two bytes read at `PC` and `PC + 1` are the fetched word, big-endian (R101). -/
theorem fetch_of_memRead {s : State} {hi lo : Byte} (hhi : s.memRead s.pc.toNat = some hi)
    (hlo : s.memRead (s.pc.toNat + 1) = some lo) : fetch s.mem s.pc = .ok (wordOfBytes hi lo) := by
  unfold State.memRead at hhi hlo
  simp only [fetch, hhi, hlo]

/-! ## No instruction's meaning refuses -/

theorem exec_ne_refused (i : Instr) (s : State) (why : Refusal) : exec i s ≠ .refused why := by
  cases i
  case ret | call | drw | skp | sknp | ldVxKey | addIVx | ldBVx | dump | load =>
    simp only [exec, execRet, execCall, execDrw, execSkp, execSknp, execLdVxKey, execAddIVx, execLdBVx, execDump,
      execLoad, raise]
    split <;> nofun
  all_goals nofun

theorem endStep_ne_refused {o : Host.Outcome State Fault Refusal} {why : Refusal} (h : o ≠ .refused why) :
    endStep o ≠ .refused why := by
  cases o with
  | next | fault => nofun
  | refused => exact h

/-- An admitted step is not refused: fetch and decode can only fault, and no meaning refuses (R100). -/
theorem step_ne_refused {s : State} (hs : s.admitted) (why : Refusal) : step s ≠ .refused why := by
  cases hfetch : fetch s.mem s.pc with
  | error a => rw [step_of_fetch_error hs hfetch]; nofun
  | ok w =>
    cases hdecode : decode w with
    | unknown w' => rw [step_of_decode_unknown hs hfetch hdecode]; nofun
    | insn i => rw [step_of_decode hs hfetch hdecode]; exact endStep_ne_refused (exec_ne_refused i _ why)

/-! ## The delay timer (R105) -/

theorem State.decayDelay_eq (s : State) : s.decayDelay = { s with dt := if s.dt = 0 then 0 else s.dt - 1 } := by
  unfold State.decayDelay
  by_cases h : s.dt = 0
  · rw [if_neg (not_not.2 h), if_pos h, ← h]
  · rw [if_pos h, if_neg h]

theorem State.decayDelay_dt_toNat (s : State) : s.decayDelay.dt.toNat = s.dt.toNat - 1 := by
  rw [State.decayDelay_dt]
  split
  · simp [*]
  · bv_omega

theorem KeepsBut.dt_eq {p : List Part} {s t : State} (h : KeepsBut p s t) (hp : Part.dt ∉ p) : t.dt = s.dt := by
  obtain ⟨-, -, -, -, hdt, -⟩ := h
  exact hdt hp

theorem dt_mem_writes_iff (i : Instr) : Part.dt ∈ writes i ↔ ∃ x, i = .ldDtVx x := by cases i <;> simp [writes]

/-! ## The wait for a key (R193, R111) -/

/-- The state after one step of `FX0A` with no key pressed: `PC` has rolled back and `DT` has decayed. -/
def State.waited (s : State) : State := { s with phase := .stepping }.decayDelay

theorem State.scanKeys_eq_none {s : State} (hkeys : ∀ j : Fin 16, s.key[j.val] = 0) : s.scanKeys = none := by
  obtain ⟨hnone, -⟩ | ⟨k, -, hpressed, -⟩ := s.scanKeys_spec
  · exact hnone
  · simp [State.keyPressed, hkeys k] at hpressed

theorem step_of_waitForKey {s : State} {w : Word} {x : Reg} (hs : s.admitted) (hfetch : fetch s.mem s.pc = .ok w)
    (hdecode : decode w = .insn (.ldVxKey x)) (hkeys : ∀ j : Fin 16, s.key[j.val] = 0) : step s = .next s.waited := by
  have hscan : s.beginExecute.scanKeys = none := State.scanKeys_eq_none hkeys
  have hback : s.beginExecute.jumpTo (s.pc + 2 - 2) = { s with phase := .stepping } := by
    rw [BitVec.add_sub_cancel]; rfl
  rw [step_of_decode hs hfetch hdecode]
  simp only [exec, execLdVxKey, hscan, State.beginExecute_pc, hback]
  rfl

theorem State.waited_keepsBut (s : State) : KeepsBut [.dt, .launch] s s.waited := by
  simp [KeepsBut, State.waited, State.memRead, State.getV]

theorem State.waited_admitted {s : State} (hs : s.admitted) : s.waited.admitted := by
  obtain ⟨hrunning, -⟩ := hs
  simp [State.admitted, State.waited, hrunning]

theorem State.waited_dt_toNat (s : State) : s.waited.dt.toNat = s.dt.toNat - 1 := State.decayDelay_dt_toNat _

/-- A run goes on from the state its first step reaches. -/
theorem run_succ_of_step {M : Host.Core} {s t : M.State} (hstep : M.step s = .next t) (k : Nat) :
    M.run (k + 1) s = M.run k t := by
  rw [Host.Core.run, hstep]

/-- Any number of steps of `FX0A` with no key pressed: each one reaches the same fetch again. -/
theorem run_of_waitForKey (k : Nat) {s : State} {w : Word} {x : Reg} (hs : s.admitted)
    (hfetch : fetch s.mem s.pc = .ok w) (hdecode : decode w = .insn (.ldVxKey x))
    (hkeys : ∀ j : Fin 16, s.key[j.val] = 0) :
    ∃ t, core.run k s = .next t ∧ t.dt.toNat = s.dt.toNat - k ∧ KeepsBut [.dt, .launch] s t ∧ t.admitted := by
  induction k generalizing s with
  | zero => exact ⟨s, rfl, rfl, by simp [KeepsBut], hs⟩
  | succ k ih =>
    have hfetch' : fetch s.waited.mem s.waited.pc = .ok w := by simpa [State.waited] using hfetch
    have hkeys' : ∀ j : Fin 16, s.waited.key[j.val] = 0 := by simpa [State.waited] using hkeys
    obtain ⟨t, hrun, hdt, hkeeps, ht⟩ := ih (State.waited_admitted hs) hfetch' hkeys'
    refine ⟨t, ?_, ?_, s.waited_keepsBut.trans hkeeps, ht⟩
    · exact (run_succ_of_step (M := core) (step_of_waitForKey hs hfetch hdecode hkeys) k).trans hrun
    · rw [hdt, State.waited_dt_toNat]; omega

/-! ## What a draw can influence (R108, R109) -/

/-- The state with another number of draws taken, so that the next draw is another one. -/
def State.withDraws (s : State) (n : Nat) : State := { s with draws := n }

/-- The outcome with another number of draws in its next state; a fault or a refusal holds none. -/
def withDrawsNext (n : Nat) : Host.Outcome State Fault Refusal → Host.Outcome State Fault Refusal
  | .next t => .next (t.withDraws n)
  | .fault f => .fault f
  | .refused why => .refused why

theorem State.skipIf_withDraws (s : State) (n : Nat) (c : Bool) :
    (s.withDraws n).skipIf c = (s.skipIf c).withDraws n := by cases c <;> rfl

theorem State.writeFlagged_withDraws (s : State) (n : Nat) (x : Reg) {named : Bool} (hnamed : named = false)
    (result flag : Byte) :
    (s.withDraws n).writeFlagged x named result flag = (s.writeFlagged x named result flag).withDraws n := by
  subst hnamed
  rfl

theorem State.push_withDraws (s : State) (n : Nat) (w : Word) :
    (s.withDraws n).push w = (s.push w).map (·.withDraws n) := by
  by_cases h : s.sp.val < 16
  · simp [State.push, h, State.withDraws]
  · simp [State.push, h, State.withDraws]

theorem State.pop_withDraws (s : State) (n : Nat) : (s.withDraws n).pop = s.pop.map (Prod.map id (·.withDraws n)) := by
  by_cases h : 0 < s.sp.val
  · simp [State.pop, h, State.withDraws]
  · simp [State.pop, h, State.withDraws]

@[simp] theorem State.withDraws_i (s : State) (n : Nat) : (s.withDraws n).i = s.i := rfl
@[simp] theorem State.withDraws_pc (s : State) (n : Nat) : (s.withDraws n).pc = s.pc := rfl
@[simp] theorem State.withDraws_mem (s : State) (n : Nat) : (s.withDraws n).mem = s.mem := rfl
@[simp] theorem State.getV_withDraws (s : State) (n : Nat) (r : Reg) : (s.withDraws n).getV r = s.getV r := rfl
@[simp] theorem State.regBlock_withDraws (s : State) (n : Nat) (x : Reg) :
    (s.withDraws n).regBlock x = s.regBlock x := rfl
@[simp] theorem State.keyOperand_withDraws (s : State) (n : Nat) (x : Reg) :
    (s.withDraws n).keyOperand x = s.keyOperand x := rfl
@[simp] theorem State.scanKeys_withDraws (s : State) (n : Nat) : (s.withDraws n).scanKeys = s.scanKeys := rfl

/-- Execution of an instruction that reads no draw: changing the draws before it changes only the draws after it. -/
theorem exec_withDraws {i : Instr} (hi : readsDraw i = false) (s : State) (n : Nat) :
    exec i (s.withDraws n) = withDrawsNext n (exec i s) := by
  cases i
  case rnd => cases hi
  case addReg | subReg | shr | subnReg | shl =>
    exact congrArg Host.Outcome.next (State.writeFlagged_withDraws s n _ hi _ _)
  case seImm | sneImm | seReg | sneReg => exact congrArg Host.Outcome.next (State.skipIf_withDraws s n _)
  case ret =>
    simp only [exec, execRet, State.pop_withDraws]
    cases s.pop <;> rfl
  case call =>
    simp only [exec, execCall, State.push_withDraws, State.withDraws_pc]
    cases s.push s.pc <;> rfl
  case drw x y height =>
    simp only [exec, execDrw, State.withDraws_mem, State.withDraws_i]
    cases readBlock s.mem s.i.toNat height.toNat <;> rfl
  case skp x | sknp x =>
    simp only [exec, execSkp, execSknp, State.keyOperand_withDraws]
    cases s.keyOperand x with
    | none => rfl
    | some k => exact congrArg Host.Outcome.next (State.skipIf_withDraws s n _)
  case ldVxKey =>
    simp only [exec, execLdVxKey, State.scanKeys_withDraws]
    cases s.scanKeys <;> rfl
  case addIVx =>
    simp only [exec, execAddIVx, State.withDraws_i, State.getV_withDraws]
    rw [apply_ite (withDrawsNext n)]
    rfl
  case ldBVx x =>
    simp only [exec, execLdBVx, State.withDraws_mem, State.withDraws_i, State.getV_withDraws]
    cases writeBlock s.mem s.i.toNat (bcdDigits (s.getV x)) <;> rfl
  case dump x =>
    simp only [exec, execDump, State.withDraws_mem, State.withDraws_i, State.regBlock_withDraws]
    cases writeBlock s.mem s.i.toNat (s.regBlock x) <;> rfl
  case load x =>
    simp only [exec, execLoad, State.withDraws_mem, State.withDraws_i]
    cases readBlock s.mem s.i.toNat (x.val + 1) <;> rfl
  all_goals rfl

end Sys2Proof.Machine

namespace Sys2Proof.Proofs

open Sys2Proof.Machine

/-- Settles O7: the two bytes are the fetched word, so the step is the instruction's execution and one decay. -/
theorem stepRunsDecodedInstruction : Obligations.StepRunsDecodedInstruction := by
  unfold Obligations.StepRunsDecodedInstruction
  intro s hi lo i hs hhi hlo hdecode
  have hbegin : { s with pc := s.pc + 2, phase := .stepping } = s.beginExecute := rfl
  rw [step_of_decode hs (fetch_of_memRead hhi hlo) hdecode, hbegin]
  cases exec i s.beginExecute with
  | next t => exact congrArg Host.Outcome.next t.decayDelay_eq
  | fault | refused => rfl

/-- Settles O8: the fetch fails at its first byte when `PC` is outside memory, and at its second one at 4095. -/
theorem fetchOutsideMemoryFaults : Obligations.FetchOutsideMemoryFaults := by
  unfold Obligations.FetchOutsideMemoryFaults
  refine fun s hs => ⟨fun hpc => step_of_fetch_error hs ?_, fun hpc => step_of_fetch_error hs ?_⟩
  · rw [fetch_eq, if_neg (Nat.not_lt.2 (Nat.le_succ_of_le hpc)), if_neg (Nat.not_lt.2 hpc)]
  · rw [fetch_eq, hpc, if_neg (by decide), if_pos (by decide)]

/-- Settles O10: `STATUS` and `PHASE` pick the refusal, and an admitted step reaches fetch, decode and execution, none of
which refuses. -/
theorem stepRefusedExactlyWhenNotAdmitted : Obligations.StepRefusedExactlyWhenNotAdmitted := by
  unfold Obligations.StepRefusedExactlyWhenNotAdmitted
  refine fun s => ⟨fun record hstatus => ?_, fun hstatus hphase => ?_, fun reason hstatus hphase => ?_, step_ne_refused⟩
  · simp only [step, hstatus]
  · simp only [step, hstatus, hphase]
  · simp only [step, hstatus, hphase]

/-- Settles O12: only `FX15`'s rule names `DT` and only `FX18`'s names `ST`; the end of the step decays `DT` once. -/
theorem delayTimerCountsDownOncePerStep : Obligations.DelayTimerCountsDownOncePerStep := by
  unfold Obligations.DelayTimerCountsDownOncePerStep
  intro s t w i hfetch hdecode hstep
  obtain ⟨u, hexec, rfl⟩ := step_next_of_decode hfetch hdecode hstep
  have hframe : KeepsBut (writes i) s.beginExecute u := exec_keepsBut hexec
  simp only [State.decayDelay_dt_toNat, State.decayDelay_st]
  refine ⟨fun x hx => ?_, fun hne => ?_, fun hne => ?_⟩
  · subst hx; cases hexec; rfl
  · rw [hframe.dt_eq (by simpa [dt_mem_writes_iff] using hne), State.beginExecute_dt]
  · rw [hframe.st_eq (by simpa [st_mem_writes_iff] using hne), State.beginExecute_st]

/-- Settles O41, by induction on the number of steps. -/
theorem waitForKeyRepeatsForever : Obligations.WaitForKeyRepeatsForever := by
  unfold Obligations.WaitForKeyRepeatsForever
  exact fun k s w x hs hfetch hdecode hkeys => run_of_waitForKey k hs hfetch hdecode hkeys

/-- Settles O51: an instruction that reads no draw executes alike under another number of draws taken. -/
theorem onlyDrawReadersDependOnDraws : Obligations.OnlyDrawReadersDependOnDraws := by
  unfold Obligations.OnlyDrawReadersDependOnDraws
  intro i s n hi
  have h : exec i { s with draws := n } = withDrawsNext n (exec i s) := exec_withDraws hi s n
  refine ⟨fun t ht => ?_, fun f hf => ?_⟩
  · rw [h, ht]; rfl
  · rw [h, hf]; rfl

end Sys2Proof.Proofs
end

section
/-! SUPPORT. Calls, returns, jumps and skips, each as the state it leaves or the fault it raises, and the statements of
41_control_flow.md settled from them. The frames are those of `exec_keepsBut`. -/

namespace Sys2Proof.Machine

/-! ## Return (R120) -/

theorem exec_ret_of_sp_eq_zero {s : State} (hsp : s.sp.val = 0) :
    exec .ret s = .fault (.stackUnderflow (s.pc - 2) (encode .ret)) := by
  have hpop : s.pop = none := (State.pop_eq s).2 hsp
  rw [exec, execRet, hpop]
  rfl

theorem exec_ret_of_sp_pos {s : State} (hsp : 0 < s.sp.val) :
    ∃ t, exec .ret s = .next t ∧ t.sp.val = s.sp.val - 1 ∧ some t.pc = s.stack[s.sp.val - 1]? ∧ t.stack = s.stack := by
  obtain ⟨w, u, hpop, hcell, husp, hu⟩ := (State.pop_eq s).1 hsp
  have hustack : u.stack = s.stack := by rw [hu]
  refine ⟨u.jumpTo w, ?_, husp, hcell.symm, hustack⟩
  rw [exec, execRet, hpop]

/-! ## Call (R122) -/

theorem exec_call_of_sp_eq_sixteen (nnn : Addr12) {s : State} (hsp : s.sp.val = 16) :
    exec (.call nnn) s = .fault (.stackOverflow (s.pc - 2) (encode (.call nnn))) := by
  have hpush : s.push s.pc = none := (State.push_eq s s.pc).2 hsp
  rw [exec, execCall, hpush]
  rfl

theorem exec_call_of_sp_lt (nnn : Addr12) {s : State} (hsp : s.sp.val < 16) :
    ∃ t, exec (.call nnn) s = .next t ∧ t.sp.val = s.sp.val + 1 ∧ t.pc = nnn.zeroExtend 16 ∧
      ∀ k : Fin 16, t.stack[k.val] = if k.val = s.sp.val then s.pc else s.stack[k.val] := by
  obtain ⟨u, hpush, husp, hustack, -⟩ := (State.push_eq s s.pc).1 hsp
  refine ⟨u.jumpTo (nnn.zeroExtend 16), ?_, husp, rfl, hustack⟩
  rw [exec, execCall, hpush]

/-- A call that completes had a free cell, and leaves the address after it in the top one. -/
theorem exec_call_next {nnn : Addr12} {s t : State} (h : exec (.call nnn) s = .next t) :
    t.sp.val = s.sp.val + 1 ∧ t.stack[s.sp.val]? = some s.pc := by
  obtain hfull | hfree : s.sp.val = 16 ∨ s.sp.val < 16 := by omega
  · rw [exec_call_of_sp_eq_sixteen nnn hfull] at h
    cases h
  · obtain ⟨t', ht', hsp, -, hstack⟩ := exec_call_of_sp_lt nnn hfree
    rw [h] at ht'
    cases ht'
    refine ⟨hsp, ?_⟩
    rw [Vector.getElem?_eq_getElem hfree, hstack ⟨s.sp.val, hfree⟩, if_pos rfl]

/-! ## Jumps and skips (R121, R123-R128) -/

theorem toNat_zeroExtend_addr12 (nnn : Addr12) : (nnn.zeroExtend 16 : Word).toNat = nnn.toNat :=
  BitVec.toNat_setWidth_of_le (by decide)

/-- An address field and a byte cannot pass 16 bits together, so their sum is exact (R127). -/
theorem toNat_zeroExtend_add (nnn : Addr12) (b : Byte) :
    (nnn.zeroExtend 16 + b.zeroExtend 16 : Word).toNat = nnn.toNat + b.toNat := by
  have hb : (b.zeroExtend 16 : Word).toNat = b.toNat := BitVec.toNat_setWidth_of_le (by decide)
  rw [BitVec.toNat_add, toNat_zeroExtend_addr12, hb]
  omega

theorem exec_seImm (x : Reg) (kk : Byte) (s : State) :
    exec (.seImm x kk) s = .next (s.skipIf (s.getV x == kk)) := rfl

theorem exec_sneImm (x : Reg) (kk : Byte) (s : State) :
    exec (.sneImm x kk) s = .next (s.skipIf (s.getV x != kk)) := rfl

theorem exec_seReg (x y : Reg) (s : State) :
    exec (.seReg x y) s = .next (s.skipIf (s.getV x == s.getV y)) := rfl

theorem exec_sneReg (x y : Reg) (s : State) :
    exec (.sneReg x y) s = .next (s.skipIf (s.getV x != s.getV y)) := rfl

theorem State.skipIf_beq_pc (s : State) (a b : Byte) :
    (s.skipIf (a == b)).pc = if a = b then s.pc + 2 else s.pc := by simp

theorem State.skipIf_bne_pc (s : State) (a b : Byte) :
    (s.skipIf (a != b)).pc = if a = b then s.pc else s.pc + 2 := by simp

end Sys2Proof.Machine

namespace Sys2Proof.Proofs

open Sys2Proof.Machine

/-- Settles O21: the empty stack faults; otherwise the popped cell becomes `PC`, and the cells stand. -/
theorem retPopsOrUnderflows : Obligations.RetPopsOrUnderflows := by
  unfold Obligations.RetPopsOrUnderflows
  refine fun s => ⟨fun hsp => ⟨_, exec_ret_of_sp_eq_zero hsp⟩, fun hsp => ?_⟩
  obtain ⟨t, hexec, htsp, hpc, hstack⟩ := exec_ret_of_sp_pos hsp
  exact ⟨t, hexec, htsp, hpc, hstack, exec_keepsBut hexec⟩

/-- Settles O22: the target is the address field, which fits 16 bits. -/
theorem jumpSetsPc : Obligations.JumpSetsPc := by
  unfold Obligations.JumpSetsPc
  exact fun nnn s => ⟨s.jumpTo (nnn.zeroExtend 16), rfl, toNat_zeroExtend_addr12 nnn, keepsBut_jumpTo s _⟩

/-- Settles O23: the full stack faults; otherwise `PC`, which is past the call, goes into the free cell at `SP`. -/
theorem callPushesOrOverflows : Obligations.CallPushesOrOverflows := by
  unfold Obligations.CallPushesOrOverflows
  refine fun nnn s => ⟨fun hsp => ⟨_, exec_call_of_sp_eq_sixteen nnn hsp⟩, fun hsp => ?_⟩
  obtain ⟨t, hexec, htsp, hpc, hstack⟩ := exec_call_of_sp_lt nnn hsp
  have htarget : t.pc.toNat = nnn.toNat := by rw [hpc, toNat_zeroExtend_addr12]
  exact ⟨t, hexec, htsp, htarget, hstack, exec_keepsBut hexec⟩

/-- Settles O24: the return pops the cell that the call has just pushed. -/
theorem callThenReturnRestoresPc : Obligations.CallThenReturnRestoresPc := by
  unfold Obligations.CallThenReturnRestoresPc
  intro nnn s t hcall
  obtain ⟨htsp, htop⟩ := exec_call_next hcall
  obtain ⟨u, hret, husp, hupc, -⟩ := exec_ret_of_sp_pos (s := t) (by omega)
  have hsp : t.sp.val - 1 = s.sp.val := by omega
  rw [hsp] at husp hupc
  have hpc : u.pc = s.pc := Option.some.inj (hupc.trans htop)
  have hcallFrame : KeepsBut [.pc, .stack] s t := exec_keepsBut hcall
  exact ⟨u, hret, hpc, Fin.ext husp, hcallFrame.trans (exec_keepsBut hret)⟩

/-- Settles O25: both are skips, on the two outcomes of one comparison with `kk`. -/
theorem skipsCompareImmediate : Obligations.SkipsCompareImmediate := by
  unfold Obligations.SkipsCompareImmediate
  exact fun x kk s =>
    ⟨⟨_, exec_seImm x kk s, s.skipIf_beq_pc _ _, keepsBut_skipIf s _⟩,
      ⟨_, exec_sneImm x kk s, s.skipIf_bne_pc _ _, keepsBut_skipIf s _⟩⟩

/-- Settles O26: both are skips, on the two outcomes of one comparison of registers; a register equals itself. -/
theorem skipsCompareRegisters : Obligations.SkipsCompareRegisters := by
  unfold Obligations.SkipsCompareRegisters
  refine fun x y s =>
    ⟨⟨_, exec_seReg x y s, s.skipIf_beq_pc _ _, fun hxy => ?_, keepsBut_skipIf s _⟩,
      ⟨_, exec_sneReg x y s, s.skipIf_bne_pc _ _, fun hxy => ?_, keepsBut_skipIf s _⟩⟩
  · rw [State.skipIf_beq_pc, hxy, if_pos rfl]
  · rw [State.skipIf_bne_pc, hxy, if_pos rfl]

/-- Settles O27: the sum of the address field and a byte fits 16 bits. -/
theorem jumpWithOffsetIsExact : Obligations.JumpWithOffsetIsExact := by
  unfold Obligations.JumpWithOffsetIsExact
  exact fun nnn s => ⟨s.jumpTo (nnn.zeroExtend 16 + (s.getV v0).zeroExtend 16), rfl,
    toNat_zeroExtend_add nnn (s.getV v0), keepsBut_jumpTo s _⟩

end Sys2Proof.Proofs
end

section
/-! SUPPORT. The result and the flag of each flag-writing ALU instruction in numbers, what an instruction that ends in a
register write leaves, and the statements of 42_alu.md settled from them. -/

namespace Sys2Proof.Machine

/-! ## Results and flags in numbers (R140, R147-R151) -/

theorem namesVf_eq_true {x y : Reg} (h : x = vf ∨ y = vf) : namesVf x y = true := by simpa [namesVf] using h

theorem namesVf_eq_false {x y : Reg} (hx : x ≠ vf) (hy : y ≠ vf) : namesVf x y = false := by simp [namesVf, hx, hy]

theorem toNat_flagByte (c : Bool) : (flagByte c).toNat = c.toNat := by cases c <;> rfl

/-- The flag of `8XY4` is 0 exactly when the exact sum passes a byte. -/
theorem addFlag_eq (a b : Byte) : addFlag a b = if a.toNat + b.toNat > 255 then 0 else 1 := by
  by_cases hover : a.toNat + b.toNat > 255
  · rw [if_pos hover, addFlag, decide_eq_true hover]; rfl
  · rw [if_neg hover, addFlag, decide_eq_false hover]; rfl

theorem noBorrowFlag_eq (a b : Byte) : noBorrowFlag a b = if a.toNat ≥ b.toNat then 1 else 0 := by
  simp [noBorrowFlag, flagByte]

theorem toNat_shrFlag (a : Byte) : (shrFlag a).toNat = a.toNat % 2 := by
  rw [shrFlag, toNat_flagByte, BitVec.getLsbD, Nat.toNat_testBit, pow_zero, Nat.div_one]

theorem toNat_shlFlag (a : Byte) : (shlFlag a).toNat = a.toNat / 128 := by
  have ha : a.toNat < 256 := a.isLt
  rw [shlFlag, toNat_flagByte, BitVec.getLsbD, Nat.toNat_testBit]
  omega

theorem toNat_sub_byte (a b : Byte) : (a - b).toNat = (a.toNat + 256 - b.toNat) % 256 := by
  have hb : b.toNat < 256 := b.isLt
  rw [BitVec.toNat_sub]
  omega

theorem toNat_ushiftRight_one (a : Byte) : (a >>> 1).toNat = a.toNat / 2 := by
  rw [BitVec.toNat_ushiftRight, Nat.shiftRight_one]

theorem toNat_shiftLeft_one (a : Byte) : (a <<< 1).toNat = 2 * a.toNat % 256 := by
  rw [BitVec.toNat_shiftLeft, Nat.shiftLeft_eq, pow_one, mul_comm]

/-! ## What an instruction that ends in a register write leaves (R140-R151) -/

theorem KeepsRegsBut.mono {p q : List Reg} {s t : State} (h : KeepsRegsBut p s t) (hpq : ∀ r ∈ p, r ∈ q) :
    KeepsRegsBut q s t := fun r hr => h r (mt (hpq r) hr)

/-- One register write: the byte is there, and nothing but that register changes. -/
theorem exec_setV_spec {i : Instr} {s : State} {x : Reg} {b : Byte} (hexec : exec i s = .next (s.setV x b)) :
    ∃ t, exec i s = .next t ∧ t.getV x = b ∧ KeepsRegsBut [x] s t ∧ KeepsBut [.v] s t := by
  have hvx : (s.setV x b).getV x = b := by rw [State.getV_setV, if_pos rfl]
  exact ⟨_, hexec, hvx, keepsRegsBut_setV s x b, keepsBut_setV s x b⟩

section
variable {i : Instr} {s : State} {x : Reg} {named : Bool}

/-- `VF` not an operand: result and flag are there, and no draw is taken. -/
theorem exec_writeFlagged_spec_of_not_named {result flag : Byte}
    (hexec : exec i s = .next (s.writeFlagged x named result flag)) (hx : x ≠ vf) (hnamed : named = false) :
    ∃ t, exec i s = .next t ∧ t.getV x = result ∧ t.getV vf = flag ∧
      KeepsRegsBut [x, vf] s t ∧ KeepsBut [.v] s t := by
  subst hnamed
  refine ⟨_, hexec, ?_, ?_, keepsRegsBut_writeFlagged s x false result flag,
    (keepsBut_setV s x result).trans (keepsBut_setV _ vf flag)⟩
  · rw [State.getV_writeFlagged, if_neg hx, if_pos rfl]; rfl
  · rw [State.getV_writeFlagged, if_pos rfl]; rfl

/-- A subtraction `a - b`, `VF` not an operand. -/
theorem exec_writeFlagged_sub_spec {a b : Byte}
    (hexec : exec i s = .next (s.writeFlagged x named (a - b) (noBorrowFlag a b))) (hx : x ≠ vf)
    (hnamed : named = false) :
    ∃ t, exec i s = .next t ∧ (t.getV x).toNat = (a.toNat + 256 - b.toNat) % 256 ∧
      t.getV vf = (if a.toNat ≥ b.toNat then 1 else 0) ∧ KeepsRegsBut [x, vf] s t ∧ KeepsBut [.v] s t := by
  obtain ⟨t, ht, hvx, hvf, hframe⟩ := exec_writeFlagged_spec_of_not_named hexec hx hnamed
  exact ⟨t, ht, by rw [hvx, toNat_sub_byte], by rw [hvf, noBorrowFlag_eq], hframe⟩

/-- `VF` an operand: the draws are there, whatever result and flag are (D14). -/
theorem exec_writeFlagged_spec_of_named {result flag : Byte}
    (hexec : exec i s = .next (s.writeFlagged x named result flag)) (hnamed : named = true) :
    ∃ t, exec i s = .next t ∧ t.getV vf = Config.drawAnyF s.draws ∧ (x ≠ vf → t.getV x = Config.drawAnyX s.draws) ∧
      KeepsRegsBut [x, vf] s t ∧ KeepsBut [.v, .draws] s t ∧ t.draws = s.draws + 1 := by
  refine ⟨_, hexec, ?_, fun hx => ?_, keepsRegsBut_writeFlagged s x named result flag,
    keepsBut_writeFlagged s x named result flag, ?_⟩
  · rw [State.getV_writeFlagged, if_pos rfl, if_pos hnamed]; rfl
  · rw [State.getV_writeFlagged, if_neg hx, if_pos rfl, if_pos hnamed]; rfl
  · rw [State.writeFlagged_draws, if_pos hnamed]

/-- `VF` the only operand: no other register changes. -/
theorem exec_writeFlagged_spec_of_vf {result flag : Byte}
    (hexec : exec i s = .next (s.writeFlagged vf named result flag)) (hnamed : named = true) :
    ∃ t, exec i s = .next t ∧ t.getV vf = Config.drawAnyF s.draws ∧ KeepsRegsBut [vf] s t ∧
      KeepsBut [.v, .draws] s t ∧ t.draws = s.draws + 1 := by
  obtain ⟨t, ht, hvf, -, hregs, hframe⟩ := exec_writeFlagged_spec_of_named hexec hnamed
  exact ⟨t, ht, hvf, hregs.mono (by decide), hframe⟩

end

/-! ## The instructions as the writes they end in (R142, R147-R152) -/

theorem exec_addImm (x : Reg) (kk : Byte) (s : State) :
    exec (.addImm x kk) s = .next (s.setV x (s.getV x + kk)) := rfl

theorem exec_addReg (x y : Reg) (s : State) : exec (.addReg x y) s =
    .next (s.writeFlagged x (namesVf x y) (s.getV x + s.getV y) (addFlag (s.getV x) (s.getV y))) := rfl

theorem exec_subReg (x y : Reg) (s : State) : exec (.subReg x y) s =
    .next (s.writeFlagged x (namesVf x y) (s.getV x - s.getV y) (noBorrowFlag (s.getV x) (s.getV y))) := rfl

theorem exec_subnReg (x y : Reg) (s : State) : exec (.subnReg x y) s =
    .next (s.writeFlagged x (namesVf x y) (s.getV y - s.getV x) (noBorrowFlag (s.getV y) (s.getV x))) := rfl

theorem exec_shr (x y : Reg) (s : State) :
    exec (.shr x y) s = .next (s.writeFlagged x (x == vf) (s.getV x >>> 1) (shrFlag (s.getV x))) := rfl

theorem exec_shl (x y : Reg) (s : State) :
    exec (.shl x y) s = .next (s.writeFlagged x (x == vf) (s.getV x <<< 1) (shlFlag (s.getV x))) := rfl

theorem exec_rnd (x : Reg) (kk : Byte) (s : State) :
    exec (.rnd x kk) s = .next (s.setV x (Config.drawRnd s.draws &&& kk)).nextDraw := rfl

end Sys2Proof.Machine

namespace Sys2Proof.Proofs

open Sys2Proof.Machine

/-- Settles O28: each is one register write, of `kk` or of the sum modulo 256. -/
theorem loadAndAddImmediate : Obligations.LoadAndAddImmediate := by
  unfold Obligations.LoadAndAddImmediate
  refine fun x kk s => ⟨exec_setV_spec rfl, ?_⟩
  obtain ⟨t, ht, hvx, hframe⟩ := exec_setV_spec (exec_addImm x kk s)
  exact ⟨t, ht, by rw [hvx, BitVec.toNat_add], hframe⟩

/-- Settles O29: each is one register write. -/
theorem assignOrAndXor : Obligations.AssignOrAndXor := by
  unfold Obligations.AssignOrAndXor
  exact fun x y s => ⟨exec_setV_spec rfl, exec_setV_spec rfl, exec_setV_spec rfl, exec_setV_spec rfl⟩

/-- Settles O30: the byte sum wraps, and the flag compares the exact sum with 255. -/
theorem addInvertsItsOverflowFlag : Obligations.AddInvertsItsOverflowFlag := by
  unfold Obligations.AddInvertsItsOverflowFlag
  intro x y s hx hy
  obtain ⟨t, ht, hvx, hvf, hframe⟩ :=
    exec_writeFlagged_spec_of_not_named (exec_addReg x y s) hx (namesVf_eq_false hx hy)
  exact ⟨t, ht, by rw [hvx, BitVec.toNat_add], by rw [hvf, addFlag_eq], hframe⟩

/-- Settles O31: both are one subtraction, with the operands in the two orders. -/
theorem subtractsFlagNoBorrow : Obligations.SubtractsFlagNoBorrow := by
  unfold Obligations.SubtractsFlagNoBorrow
  intro x y s hx hy
  have hnamed : namesVf x y = false := namesVf_eq_false hx hy
  exact ⟨exec_writeFlagged_sub_spec (exec_subReg x y s) hx hnamed,
    exec_writeFlagged_sub_spec (exec_subnReg x y s) hx hnamed⟩

/-- Settles O32: `y` does not reach the shift, and the flag is the bit at the end it shifts towards. -/
theorem shiftsUseVxOnly : Obligations.ShiftsUseVxOnly := by
  unfold Obligations.ShiftsUseVxOnly
  intro x y s hx
  have hnamed : (x == vf) = false := beq_false_of_ne hx
  constructor
  · obtain ⟨t, ht, hvx, hvf, hframe⟩ := exec_writeFlagged_spec_of_not_named (exec_shr x y s) hx hnamed
    exact ⟨t, ht, by rw [hvx, toNat_ushiftRight_one], by rw [hvf, toNat_shrFlag], hframe⟩
  · obtain ⟨t, ht, hvx, hvf, hframe⟩ := exec_writeFlagged_spec_of_not_named (exec_shl x y s) hx hnamed
    exact ⟨t, ht, by rw [hvx, toNat_shiftLeft_one], by rw [hvf, toNat_shlFlag], hframe⟩

/-- Settles O33: each ends in the flagged write with `VF` named, which takes the draws whatever was computed. -/
theorem vfOperandTakesDraws : Obligations.VfOperandTakesDraws := by
  unfold Obligations.VfOperandTakesDraws
  constructor
  · intro x y s hxy i hi
    have hnamed : namesVf x y = true := namesVf_eq_true hxy
    obtain rfl | rfl | rfl : i = .addReg x y ∨ i = .subReg x y ∨ i = .subnReg x y := by simpa using hi
    · exact exec_writeFlagged_spec_of_named (exec_addReg x y s) hnamed
    · exact exec_writeFlagged_spec_of_named (exec_subReg x y s) hnamed
    · exact exec_writeFlagged_spec_of_named (exec_subnReg x y s) hnamed
  · intro y s i hi
    obtain rfl | rfl : i = .shr vf y ∨ i = .shl vf y := by simpa using hi
    · exact exec_writeFlagged_spec_of_vf (exec_shr vf y s) (beq_self_eq_true vf)
    · exact exec_writeFlagged_spec_of_vf (exec_shl vf y s) (beq_self_eq_true vf)

/-- Settles O34: the register holds the draw masked by `kk`; the frames are those of execution. -/
theorem randomIsAndedWithImmediate : Obligations.RandomIsAndedWithImmediate := by
  unfold Obligations.RandomIsAndedWithImmediate
  intro x kk s
  have hexec := exec_rnd x kk s
  have hvx : (s.setV x (Config.drawRnd s.draws &&& kk)).nextDraw.getV x = Config.drawRnd s.draws &&& kk := by
    rw [State.getV_nextDraw, State.getV_setV, if_pos rfl]
  have hmask (j : Nat) (hj : kk.getLsbD j = false) : (Config.drawRnd s.draws &&& kk).getLsbD j = false := by
    rw [BitVec.getLsbD_and, hj, Bool.and_false]
  exact ⟨_, hexec, hvx, by rwa [hvx], exec_keepsRegsBut hexec, exec_keepsBut hexec, rfl⟩

end Sys2Proof.Proofs
end

section
/-! SUPPORT. A block that passes the end of memory, `DXYN` as the drawing of the row bytes at `I`, and which instructions
set `REDRAW` (43_display.md R170-R175, 60_exceptions.md R233); the statements of 43_display.md settled from them. -/

namespace Sys2Proof.Machine

/-! ## Blocks inside memory and past its end (R65, R233) -/

theorem firstBad_eq_max (a : Nat) : firstBad a = max 4096 a := by
  unfold firstBad Config.memSize
  split <;> omega

theorem readBlock_of_fits (m : Memory) {a n : Nat} (h : n = 0 ∨ a + n ≤ 4096) :
    readBlock m a n = .ok ((List.range n).map fun k => m.read (a + k)) := by
  rw [readBlock_eq, if_pos h]

/-- A block read that succeeds lies inside memory, and byte `k` of it is the byte at `a + k`. -/
theorem readBlock_ok_inv {m : Memory} {a n : Nat} {bytes : List Byte} (h : readBlock m a n = .ok bytes) :
    (n = 0 ∨ a + n ≤ 4096) ∧ ∀ k, k < n → bytes.getD k 0 = m.read (a + k) := by
  rw [readBlock_eq] at h
  split at h
  · cases h
    exact ⟨‹_›, fun k hk => by simp [hk]⟩
  · cases h

theorem readBlock_of_outside (m : Memory) {a n : Nat} (hn : n ≠ 0) (h : 4096 < a + n) :
    readBlock m a n = .error (max 4096 a) := by
  have hout : ¬ (n = 0 ∨ a + n ≤ 4096) := by omega
  rw [readBlock_eq, if_neg hout, firstBad_eq_max]

theorem writeBlock_of_outside (m : Memory) {a : Nat} {bytes : List Byte} (hn : bytes.length ≠ 0)
    (h : 4096 < a + bytes.length) : writeBlock m a bytes = .error (max 4096 a) := by
  have hout : ¬ (bytes.length = 0 ∨ a + bytes.length ≤ 4096) := by omega
  rw [(writeBlock_error_iff bytes m a).2 hout, firstBad_eq_max]

/-! ## The block instructions past the end of memory (R171, R214-R216) -/

theorem nibble_toNat_ne_zero {n : Nibble} (hn : n ≠ 0) : n.toNat ≠ 0 := fun h => hn (BitVec.eq_of_toNat_eq h)

theorem exec_drw_of_outside (x y : Reg) {n : Nibble} {s : State} (hn : n ≠ 0) (h : 4096 < s.i.toNat + n.toNat) :
    exec (.drw x y n) s =
      .fault (.memoryOutOfBounds (max 4096 s.i.toNat) (s.pc - 2) (some (encode (.drw x y n)))) := by
  rw [exec, execDrw, readBlock_of_outside s.mem (nibble_toNat_ne_zero hn) h]
  rfl

theorem exec_ldBVx_of_outside (x : Reg) {s : State} (h : 4096 < s.i.toNat + 3) :
    exec (.ldBVx x) s = .fault (.memoryOutOfBounds (max 4096 s.i.toNat) (s.pc - 2) (some (encode (.ldBVx x)))) := by
  rw [exec, execLdBVx, writeBlock_of_outside s.mem (bytes := bcdDigits (s.getV x)) (by simp [bcdDigits]) h]
  rfl

theorem exec_dump_of_outside {x : Reg} {s : State} (h : 4096 < s.i.toNat + x.val + 1) :
    exec (.dump x) s = .fault (.memoryOutOfBounds (max 4096 s.i.toNat) (s.pc - 2) (some (encode (.dump x)))) := by
  have hlen : (s.regBlock x).length = x.val + 1 := s.regBlock_length x
  rw [exec, execDump, writeBlock_of_outside s.mem (by omega) (by omega)]
  rfl

theorem exec_load_of_outside {x : Reg} {s : State} (h : 4096 < s.i.toNat + x.val + 1) :
    exec (.load x) s = .fault (.memoryOutOfBounds (max 4096 s.i.toNat) (s.pc - 2) (some (encode (.load x)))) := by
  rw [exec, execLoad, readBlock_of_outside s.mem (Nat.succ_ne_zero x.val) h]
  rfl

/-! ## What `DXYN` draws (R171-R174) -/

theorem flagByte_eq_one_iff (c : Bool) : flagByte c = 1 ↔ c = true := by cases c <;> decide

theorem flagByte_eq_zero_or_one (c : Bool) : flagByte c = 0 ∨ flagByte c = 1 := by cases c <;> decide

/-- Which pixels a sprite covers depends on its `n` row bytes alone. -/
theorem spriteCovers_congr (x0 y0 : Nat) {n : Nat} {row row' : Nat → Byte} (h : ∀ r, r < n → row r = row' r) :
    spriteCovers x0 y0 n row = spriteCovers x0 y0 n row' := by
  funext px py
  by_cases hin : x0 ≤ px ∧ px < x0 + 8 ∧ y0 ≤ py ∧ py < y0 + n
  · rw [spriteCovers, spriteCovers, h (py - y0) (by omega)]
  · simp [spriteCovers, hin]

/-- The pixels that `DXYN` covers: the sprite of the `n` bytes at `I`, drawn at `(VX, VY)`. -/
def State.drwCovers (s : State) (x y : Reg) (n : Nibble) : Nat → Nat → Bool :=
  spriteCovers (s.getV x).toNat (s.getV y).toNat n.toNat fun r => s.mem.read (s.i.toNat + r)

theorem exec_drw_of_fits (x y : Reg) {n : Nibble} {s : State} (h : n = 0 ∨ s.i.toNat + n.toNat ≤ 4096) :
    ∃ t, exec (.drw x y n) s = .next t := by
  have hfits : n.toNat = 0 ∨ s.i.toNat + n.toNat ≤ 4096 := h.imp_left (congrArg BitVec.toNat)
  rw [exec, execDrw, readBlock_of_fits s.mem hfits]
  exact ⟨_, rfl⟩

section
variable {x y : Reg} {n : Nibble} {s t : State}

/-- `DXYN` that completes draws the covered pixels; `VF` is the collision of the whole sprite. -/
theorem exec_drw_draws (h : exec (.drw x y n) s = .next t) :
    ∃ hit, Draws (s.drwCovers x y n) (s.fb, false) (t.fb, hit) ∧ t.getV vf = flagByte hit := by
  obtain ⟨rows, hread, rfl⟩ := execDrw_next h
  obtain ⟨-, hbytes⟩ := readBlock_ok_inv hread
  have hdraws := drawRows_draws (s.getV x).toNat (s.getV y).toNat rows (s.fb, false)
  rw [length_of_readBlock_ok hread, spriteCovers_congr _ _ hbytes] at hdraws
  exact ⟨_, hdraws, by rw [State.getV_drawSprite, if_pos rfl]⟩

theorem exec_drw_pixel (h : exec (.drw x y n) s = .next t) {px py : Nat} (hpx : px < 64) (hpy : py < 32) :
    t.pixel px py = (s.pixel px py ^^ s.drwCovers x y n px py) := by
  obtain ⟨hit, ⟨hpixels, -⟩, -⟩ := exec_drw_draws h
  exact hpixels px py hpx hpy

theorem exec_drw_vf_eq_one_iff (h : exec (.drw x y n) s = .next t) :
    t.getV vf = 1 ↔
      ∃ px py, px < 64 ∧ py < 32 ∧ s.pixel px py = true ∧ s.drwCovers x y n px py = true := by
  obtain ⟨hit, ⟨-, hhit⟩, hvf⟩ := exec_drw_draws h
  simp only [Bool.false_eq_true, false_or] at hhit
  simp only [hvf, flagByte_eq_one_iff, hhit, State.pixel, and_comm (a := s.drwCovers x y n _ _ = true)]

theorem exec_drw_vf_eq_zero_or_one (h : exec (.drw x y n) s = .next t) : t.getV vf = 0 ∨ t.getV vf = 1 := by
  obtain ⟨hit, -, hvf⟩ := exec_drw_draws h
  rw [hvf]
  exact flagByte_eq_zero_or_one hit

theorem exec_drw_redraw (h : exec (.drw x y n) s = .next t) : t.redraw = true := by
  obtain ⟨rows, -, rfl⟩ := execDrw_next h
  rfl

theorem exec_drw_fits (h : exec (.drw x y n) s = .next t) : n = 0 ∨ s.i.toNat + n.toNat ≤ 4096 := by
  obtain ⟨rows, hread, -⟩ := execDrw_next h
  obtain ⟨hfits, -⟩ := readBlock_ok_inv hread
  exact hfits.imp_left BitVec.eq_of_toNat_eq

theorem exec_drw_i_mem (h : exec (.drw x y n) s = .next t) : t.i = s.i ∧ t.mem = s.mem := by
  obtain ⟨rows, -, rfl⟩ := execDrw_next h
  exact ⟨rfl, rfl⟩

/-- Coordinates that are not `VF` survive the draw, so drawing again covers the same pixels. -/
theorem exec_drw_drwCovers (h : exec (.drw x y n) s = .next t) (hx : x ≠ vf) (hy : y ≠ vf) :
    t.drwCovers x y n = s.drwCovers x y n := by
  have hregs : KeepsRegsBut [vf] s t := exec_keepsRegsBut h
  obtain ⟨hi, hmem⟩ := exec_drw_i_mem h
  simp only [State.drwCovers, hregs x (by simpa using hx), hregs y (by simpa using hy), hi, hmem]

end

/-! ## Which instructions set `REDRAW` (R175) -/

theorem redraw_mem_writes_iff (i : Instr) : Part.redraw ∈ writes i ↔ i = .cls ∨ ∃ x y n, i = .drw x y n := by
  cases i <;> simp [writes]

end Sys2Proof.Machine

namespace Sys2Proof.Proofs

open Sys2Proof.Machine

/-- Settles O15: the two drawing instructions end with `REDRAW` set, and no other instruction's rule names it. -/
theorem redrawIsSetUnconditionally : Obligations.RedrawIsSetUnconditionally := by
  unfold Obligations.RedrawIsSetUnconditionally
  refine ⟨fun s t h => ?_, fun x y n s t h => exec_drw_redraw h, fun i s t hcls hdrw h => ?_⟩
  · cases h; rfl
  · have hunnamed : Part.redraw ∉ writes i := by simpa [redraw_mem_writes_iff] using ⟨hcls, hdrw⟩
    exact (exec_keepsBut h).redraw_eq hunnamed

/-- Settles O36: the row bytes are read, so the draw completes; each pixel is flipped where covered, and `VF` is 1 exactly
when a covered pixel was set, else 0. -/
theorem drawXorsClipsAndReportsCollision : Obligations.DrawXorsClipsAndReportsCollision := by
  unfold Obligations.DrawXorsClipsAndReportsCollision
  intro x y n s hfits
  obtain ⟨t, h⟩ := exec_drw_of_fits x y hfits
  refine ⟨t, h, fun px py hpx hpy => exec_drw_pixel h hpx hpy, (exec_drw_vf_eq_one_iff h).2, fun hclear => ?_,
    exec_drw_redraw h, exec_keepsRegsBut h, exec_keepsBut h⟩
  refine (exec_drw_vf_eq_zero_or_one h).resolve_right fun hone => ?_
  obtain ⟨px, py, hpx, hpy, hset, hcovered⟩ := (exec_drw_vf_eq_one_iff h).1 hone
  exact Bool.false_ne_true ((hclear px py hpx hpy hset).symm.trans hcovered)

/-- Settles O37: the second draw covers the same pixels, so each is flipped twice; a covered pixel is set before the second
draw exactly when it was clear before the first. -/
theorem drawingTwiceRestoresTheScreen : Obligations.DrawingTwiceRestoresTheScreen := by
  unfold Obligations.DrawingTwiceRestoresTheScreen
  intro x y n s t hx hy h
  have hcovers : t.drwCovers x y n = s.drwCovers x y n := exec_drw_drwCovers h hx hy
  obtain ⟨hi, -⟩ := exec_drw_i_mem h
  obtain ⟨u, hu⟩ := exec_drw_of_fits x y (s := t) (by rw [hi]; exact exec_drw_fits h)
  refine ⟨u, hu, fb_ext fun px py hpx hpy => ?_, (exec_drw_vf_eq_one_iff hu).trans ?_⟩
  · calc u.pixel px py = (s.pixel px py ^^ s.drwCovers x y n px py ^^ s.drwCovers x y n px py) := by
          rw [exec_drw_pixel hu hpx hpy, exec_drw_pixel h hpx hpy, hcovers]
      _ = s.pixel px py := by rw [Bool.xor_assoc, Bool.xor_self, Bool.xor_false]
  · refine exists₂_congr fun px py => and_congr_right fun hpx => and_congr_right fun hpy => ?_
    rw [hcovers, exec_drw_pixel h hpx hpy]
    refine and_congr_left fun (hcovered : s.drwCovers x y n px py = true) => ?_
    rw [hcovered, Bool.xor_true, Bool.not_eq_true']

/-- Settles O48: a block of at least one byte that passes the end of memory fails at 4096, or at `I` when that is beyond. -/
theorem blocksFaultAtTheFirstBadAddress : Obligations.BlocksFaultAtTheFirstBadAddress := by
  unfold Obligations.BlocksFaultAtTheFirstBadAddress
  exact fun x y n s => ⟨exec_drw_of_outside x y, exec_ldBVx_of_outside x,
    fun h => ⟨exec_dump_of_outside h, exec_load_of_outside h⟩⟩

/-- Settles O35: the framebuffer is the zero vector, and the frame is that of execution. -/
theorem clsClearsTheScreen : Obligations.ClsClearsTheScreen := by
  unfold Obligations.ClsClearsTheScreen
  refine fun s => ⟨{ s with fb := 0, redraw := true }, rfl, fun px py _ _ => ?_, rfl, keepsBut_setFb s 0 true⟩
  simp [State.pixel, fbCell]

end Sys2Proof.Proofs
end

section
/-! SUPPORT. The highest pressed key as the scan of `FX0A`, the key skips on both outcomes, and the timer writes; the
statements of 44_keys_timers.md settled from them. The frames are those of `exec_keepsBut` and of each operation. -/

namespace Sys2Proof.Machine

/-! ## Pressed keys (R40, R193) -/

theorem State.keyPressed_eq_true_iff {s : State} {k : Fin 16} : s.keyPressed k = true ↔ s.key[k.val] ≠ 0 := bne_iff_ne

theorem State.keyPressed_eq_false_iff {s : State} {k : Fin 16} : s.keyPressed k = false ↔ s.key[k.val] = 0 :=
  bne_eq_false_iff_eq

/-- A pressed key above which none is pressed is what the scan of `FX0A` finds. -/
theorem State.scanKeys_eq_some {s : State} {k : Fin 16} (hk : s.key[k.val] ≠ 0)
    (habove : ∀ j : Fin 16, k < j → s.key[j.val] = 0) : s.scanKeys = some k := by
  obtain ⟨-, hnone⟩ | ⟨m, hscan, hm, habove'⟩ := s.scanKeys_spec
  · exact absurd (State.keyPressed_eq_false_iff.1 (hnone k)) hk
  · obtain hlt | rfl | hgt := lt_trichotomy k m
    · exact absurd (habove m hlt) (State.keyPressed_eq_true_iff.1 hm)
    · exact hscan
    · exact absurd (State.keyPressed_eq_false_iff.1 (habove' k hgt)) hk

/-! ## The wait for a key on both outcomes of the scan (R193) -/

theorem exec_ldVxKey_of_scanKeys_eq_some (x : Reg) {s : State} {k : Fin 16} (hscan : s.scanKeys = some k) :
    exec (.ldVxKey x) s = .next (s.setV x (BitVec.ofNat 8 k.val)) := by
  rw [exec, execLdVxKey, hscan]

theorem exec_ldVxKey_of_scanKeys_eq_none (x : Reg) {s : State} (hscan : s.scanKeys = none) :
    exec (.ldVxKey x) s = .next (s.jumpTo (s.pc - 2)) := by
  rw [exec, execLdVxKey, hscan]

/-- A key index fits a byte, so the register holds it exactly. -/
theorem toNat_ofNat_key (k : Fin 16) : (BitVec.ofNat 8 k.val).toNat = k.val := by
  rw [BitVec.toNat_ofNat]
  omega

/-! ## The key skips on a key index and on a byte above 15 (R190, R191, R234) -/

theorem State.keyOperand_eq_some {x : Reg} {s : State} {k : Fin 16} (hk : (s.getV x).toNat = k.val) :
    s.keyOperand x = some k := by
  have hlt : (s.getV x).toNat < 16 := hk ▸ k.isLt
  rw [State.keyOperand, dif_pos hlt]
  exact congrArg some (Fin.ext hk)

theorem State.keyOperand_eq_none {x : Reg} {s : State} (h : 15 < (s.getV x).toNat) : s.keyOperand x = none :=
  dif_neg (Nat.not_lt.2 h)

theorem State.skipIf_keyPressed_pc (s : State) (k : Fin 16) :
    (s.skipIf (s.keyPressed k)).pc = if s.key[k.val] ≠ 0 then s.pc + 2 else s.pc := by
  simp only [State.skipIf_pc, State.keyPressed_eq_true_iff]

theorem State.skipIf_not_keyPressed_pc (s : State) (k : Fin 16) :
    (s.skipIf (!s.keyPressed k)).pc = if s.key[k.val] = 0 then s.pc + 2 else s.pc := by
  simp only [State.skipIf_pc, Bool.not_eq_true', State.keyPressed_eq_false_iff]

section
variable {x : Reg} {s : State}

theorem exec_skp_of_key {k : Fin 16} (hk : (s.getV x).toNat = k.val) :
    exec (.skp x) s = .next (s.skipIf (s.keyPressed k)) := by
  rw [exec, execSkp, State.keyOperand_eq_some hk]

theorem exec_sknp_of_key {k : Fin 16} (hk : (s.getV x).toNat = k.val) :
    exec (.sknp x) s = .next (s.skipIf (!s.keyPressed k)) := by
  rw [exec, execSknp, State.keyOperand_eq_some hk]

theorem exec_skp_of_gt (h : 15 < (s.getV x).toNat) :
    exec (.skp x) s = .fault (.keyIndexOutOfRange (s.getV x) (s.pc - 2) (encode (.skp x))) := by
  rw [exec, execSkp, State.keyOperand_eq_none h]
  rfl

theorem exec_sknp_of_gt (h : 15 < (s.getV x).toNat) :
    exec (.sknp x) s = .fault (.keyIndexOutOfRange (s.getV x) (s.pc - 2) (encode (.sknp x))) := by
  rw [exec, execSknp, State.keyOperand_eq_none h]
  rfl

end

/-! ## The timer writes (R194, R195) -/

theorem exec_ldDtVx (x : Reg) (s : State) : exec (.ldDtVx x) s = .next { s with dt := s.getV x } := rfl

theorem exec_ldStVx (x : Reg) (s : State) : exec (.ldStVx x) s = .next { s with st := s.getV x } := rfl

end Sys2Proof.Machine

namespace Sys2Proof.Proofs

open Sys2Proof.Machine

/-- Settles O40: the scan finds the highest pressed key, and `VX` is written; or it finds none, and `PC` goes back. -/
theorem waitForKeyTakesTheHighest : Obligations.WaitForKeyTakesTheHighest := by
  unfold Obligations.WaitForKeyTakesTheHighest
  refine fun x s => ⟨fun k hk habove => ?_, fun hkeys => ?_⟩
  · have hscan : s.scanKeys = some k := State.scanKeys_eq_some hk habove
    obtain ⟨t, ht, hvx, hframe⟩ := exec_setV_spec (exec_ldVxKey_of_scanKeys_eq_some x hscan)
    exact ⟨t, ht, by rw [hvx, toNat_ofNat_key], hframe⟩
  · have hscan : s.scanKeys = none := State.scanKeys_eq_none hkeys
    exact ⟨_, exec_ldVxKey_of_scanKeys_eq_none x hscan, rfl, keepsBut_jumpTo s _⟩

/-- Settles O38: up to 15 both are skips, on the two outcomes of one key flag; above 15 `VX` is no key index. -/
theorem keySkips : Obligations.KeySkips := by
  unfold Obligations.KeySkips
  exact fun x s =>
    ⟨fun k hk => ⟨⟨_, exec_skp_of_key hk, s.skipIf_keyPressed_pc k, keepsBut_skipIf s _⟩,
      ⟨_, exec_sknp_of_key hk, s.skipIf_not_keyPressed_pc k, keepsBut_skipIf s _⟩⟩,
      fun h => ⟨exec_skp_of_gt h, exec_sknp_of_gt h⟩⟩

/-- Settles O39: `FX07` is one register write, and each timer write is the only part its instruction writes. -/
theorem timerTransfers : Obligations.TimerTransfers := by
  unfold Obligations.TimerTransfers
  exact fun x s => ⟨exec_setV_spec rfl,
    ⟨_, exec_ldDtVx x s, rfl, exec_keepsBut (exec_ldDtVx x s)⟩,
    ⟨_, exec_ldStVx x s, rfl, exec_keepsBut (exec_ldStVx x s)⟩⟩

end Sys2Proof.Proofs
end

section
/-! SUPPORT. What a block store at `I` leaves in memory, the decimal digits of a byte, and the register load inside memory;
the statements of 45_index_memory.md settled from them. The frames are those of each operation. -/

namespace Sys2Proof.Machine

/-! ## Block stores at `I` (R65, R214, R215) -/

theorem writeBlock_of_fits (m : Memory) {a : Nat} {bytes : List Byte} (h : a + bytes.length ≤ 4096) :
    ∃ m', writeBlock m a bytes = .ok m' :=
  (writeBlock_error_iff bytes m a).1 (.inr h)

/-- A block store puts byte `k` of the block at `a + k`. -/
theorem memRead_setMem_of_inside {s : State} {bytes : List Byte} {m : Memory} {a k : Nat}
    (hw : writeBlock s.mem a bytes = .ok m) (hk : k < bytes.length) :
    (s.setMem m).memRead (a + k) = some (bytes.getD k 0) := by
  have hfits : bytes.length = 0 ∨ a + bytes.length ≤ 4096 := writeBlock_ok_fits hw
  have hread : m.read (a + k) = bytes.getD k 0 := by
    rw [writeBlock_read hw, if_pos (by omega), Nat.add_sub_cancel_left]
  have hin : a + k < 4096 := by omega
  rw [State.memRead, memRead, State.setMem_mem, if_pos hin, hread]

/-- An instruction that stores one block at `I`, the block inside memory: the bytes are there, and nothing else changes. -/
theorem exec_writeBlock_spec {i : Instr} {s : State} {bytes : List Byte}
    (hexec : ∀ m, writeBlock s.mem s.i.toNat bytes = .ok m → exec i s = .next (s.setMem m))
    (hfits : s.i.toNat + bytes.length ≤ 4096) :
    ∃ t, exec i s = .next t ∧ (∀ k, k < bytes.length → t.memRead (s.i.toNat + k) = some (bytes.getD k 0)) ∧
      (∀ a, a < s.i.toNat ∨ s.i.toNat + bytes.length ≤ a → t.memRead a = s.memRead a) ∧ KeepsBut [.mem] s t := by
  obtain ⟨m, hw⟩ := writeBlock_of_fits s.mem hfits
  exact ⟨_, hexec m hw, fun k hk => memRead_setMem_of_inside hw hk, fun a ha => memRead_setMem_of_outside hw ha,
    keepsBut_setMem s m⟩

theorem exec_ldBVx_of_writeBlock_ok {x : Reg} {s : State} {m : Memory}
    (hw : writeBlock s.mem s.i.toNat (bcdDigits (s.getV x)) = .ok m) : exec (.ldBVx x) s = .next (s.setMem m) := by
  rw [exec, execLdBVx, hw]

theorem exec_dump_of_writeBlock_ok {x : Reg} {s : State} {m : Memory}
    (hw : writeBlock s.mem s.i.toNat (s.regBlock x) = .ok m) : exec (.dump x) s = .next (s.setMem m) := by
  rw [exec, execDump, hw]

/-- Division and remainder of a byte are those of its value, so each digit is the byte of the value's digit. -/
theorem bcdDigits_eq_ofNat (b : Byte) :
    bcdDigits b =
      [BitVec.ofNat 8 (b.toNat / 100), BitVec.ofNat 8 (b.toNat / 10 % 10), BitVec.ofNat 8 (b.toNat % 10)] := by
  have hdigits := congrArg (List.map (BitVec.ofNat 8)) (bcdDigits_toNat b)
  simpa [Function.comp_def] using hdigits

/-! ## The register load inside memory (R216) -/

theorem exec_load_of_fits {x : Reg} {s : State} (h : s.i.toNat + x.val + 1 ≤ 4096) :
    exec (.load x) s =
      .next (s.setRegBlock ((List.range (x.val + 1)).map fun k => s.mem.read (s.i.toNat + k))) := by
  rw [exec, execLoad, readBlock_of_fits s.mem (n := x.val + 1) (.inr h)]

/-- A load of `V0..VX` puts byte `r` of the block in `V[r]`. -/
theorem State.getV_setRegBlock_range (s : State) {x r : Reg} (hr : r ≤ x) (byte : Nat → Byte) :
    (s.setRegBlock ((List.range (x.val + 1)).map byte)).getV r = byte r.val := by
  have hlt : r.val < x.val + 1 := Nat.lt_succ_of_le hr
  simp [hlt]

/-! ## The index register (R211-R213) -/

theorem exec_ldI (nnn : Addr12) (s : State) : exec (.ldI nnn) s = .next (s.setI (nnn.zeroExtend 16)) := rfl

theorem exec_ldFVx (x : Reg) (s : State) : exec (.ldFVx x) s = .next (s.setI (glyphAddr (s.getV x))) := rfl

/-- Five times a byte fits 16 bits, so no glyph address wraps. -/
theorem toNat_glyphAddr (d : Byte) : (glyphAddr d).toNat = d.toNat * 5 := by
  have hd : (d.zeroExtend 16 : Word).toNat = d.toNat := BitVec.toNat_setWidth_of_le (by decide)
  have hfive : (5 : Word).toNat = 5 := rfl
  rw [glyphAddr, BitVec.toNat_mul, hd, hfive, Nat.mod_eq_of_lt (by omega)]

section
variable {x : Reg} {s : State}

theorem exec_addIVx_of_le (h : s.i.toNat + (s.getV x).toNat ≤ 0xFFFF) :
    exec (.addIVx x) s = .next (s.setI (BitVec.ofNat 16 (s.i.toNat + (s.getV x).toNat))) := by
  have hfits : ¬ s.i.toNat + (s.getV x).toNat > 0xFFFF := by omega
  simp only [exec, execAddIVx, if_neg hfits]

theorem exec_addIVx_of_gt (h : 0xFFFF < s.i.toNat + (s.getV x).toNat) :
    exec (.addIVx x) s =
      .fault (.indexOverflow (s.i.toNat + (s.getV x).toNat) (s.pc - 2) (encode (.addIVx x))) := by
  simp only [exec, execAddIVx, if_pos h, raise, State.pc0]

end

end Sys2Proof.Machine

namespace Sys2Proof.Proofs

open Sys2Proof.Machine

/-- Settles O45: one block store, of the three digits of `VX`. -/
theorem bcdStoresThreeDigits : Obligations.BcdStoresThreeDigits := by
  unfold Obligations.BcdStoresThreeDigits
  intro x s hfits
  obtain ⟨t, ht, hstored, hframe⟩ := exec_writeBlock_spec (fun _ => exec_ldBVx_of_writeBlock_ok (x := x)) hfits
  rw [bcdDigits_eq_ofNat] at hstored
  exact ⟨t, ht, hstored 0 (by simp), hstored 1 (by simp), hstored 2 (by simp), hframe⟩

/-- Settles O46: one block store, of the `x + 1` bytes of the register block. -/
theorem registerDumpStoresTheBlock : Obligations.RegisterDumpStoresTheBlock := by
  unfold Obligations.RegisterDumpStoresTheBlock
  intro x s hfits
  have hlen : (s.regBlock x).length = x.val + 1 := s.regBlock_length x
  have hblock : s.i.toNat + (s.regBlock x).length ≤ 4096 := by omega
  obtain ⟨t, ht, hstored, houtside, hframe⟩ :=
    exec_writeBlock_spec (fun _ => exec_dump_of_writeBlock_ok (x := x)) hblock
  rw [hlen] at hstored houtside
  refine ⟨t, ht, fun r hr => ?_, houtside, hframe⟩
  rw [hstored r.val (Nat.lt_succ_of_le hr), State.regBlock_getD s x r hr]

/-- Settles O47: the read of the block succeeds, byte `r` of it goes to `V[r]`, and no register above `VX` is named by the
rule. -/
theorem registerLoadReadsTheBlock : Obligations.RegisterLoadReadsTheBlock := by
  unfold Obligations.RegisterLoadReadsTheBlock
  intro x s hfits
  have hexec := exec_load_of_fits hfits
  refine ⟨_, hexec, fun r hr => ?_, fun r hxr => exec_keepsRegsBut hexec r (by simpa [writesRegs] using hxr),
    keepsBut_setRegBlock s _⟩
  have hrx : r.val ≤ x.val := hr
  have hin : s.i.toNat + r.val < 4096 := by omega
  rw [State.getV_setRegBlock_range s hr, State.memRead, memRead, if_pos hin]

/-- Settles O42: the address field fits 16 bits. -/
theorem loadIndexImmediate : Obligations.LoadIndexImmediate := by
  unfold Obligations.LoadIndexImmediate
  exact fun nnn s => ⟨_, exec_ldI nnn s, toNat_zeroExtend_addr12 nnn, keepsBut_setI s _⟩

/-- Settles O43: a sum of at most 0xFFFF is kept exactly in 16 bits; a greater one faults. -/
theorem addToIndexIsExact : Obligations.AddToIndexIsExact := by
  unfold Obligations.AddToIndexIsExact
  refine fun x s => ⟨fun h => ⟨_, exec_addIVx_of_le h, ?_, keepsBut_setI s _⟩, exec_addIVx_of_gt⟩
  rw [State.setI_i, BitVec.toNat_ofNat, Nat.mod_eq_of_lt (by omega)]

/-- Settles O44: the glyph address is five times the whole byte, and it fits 16 bits. -/
theorem glyphAddressIsFiveTimesVx : Obligations.GlyphAddressIsFiveTimesVx := by
  unfold Obligations.GlyphAddressIsFiveTimesVx
  exact fun x s => ⟨_, exec_ldFVx x s, toNat_glyphAddr _, keepsBut_setI s _⟩

end Sys2Proof.Proofs
end

section
/-! SUPPORT. Under which condition each instruction faults, what each host action does to a session, and one iteration
of the driver (60_exceptions.md R230-R250, 70_reset_and_hazards.md R260-R265); the statements of 60_exceptions.md settled
from them. The frames are those of each operation. -/

namespace Sys2Proof.Machine

/-! ## The faults of execution (R230-R235) -/

section
variable {i : Instr} {x y : Reg} {n : Nibble} {nnn : Addr12} {s : State} {f : Fault}

/-- An instruction that faults with one record when `cause` holds, and completes when it does not, faults in no other
way. -/
theorem exec_fault_inv {cause : Prop} {record : Fault} (hfault : cause → exec i s = .fault record)
    (hnext : ¬ cause → ∃ t, exec i s = .next t) (h : exec i s = .fault f) : cause ∧ f = record := by
  by_cases hcause : cause
  · rw [hfault hcause] at h
    cases h
    exact ⟨hcause, rfl⟩
  · obtain ⟨t, ht⟩ := hnext hcause
    rw [ht] at h
    cases h

theorem exec_ret_fault (h : exec .ret s = .fault f) :
    s.sp.val = 0 ∧ f = .stackUnderflow (s.pc - 2) (encode .ret) := by
  refine exec_fault_inv exec_ret_of_sp_eq_zero (fun hsp => ?_) h
  obtain ⟨t, ht, -⟩ := exec_ret_of_sp_pos (Nat.pos_of_ne_zero hsp)
  exact ⟨t, ht⟩

theorem exec_call_fault (h : exec (.call nnn) s = .fault f) :
    s.sp.val = 16 ∧ f = .stackOverflow (s.pc - 2) (encode (.call nnn)) := by
  refine exec_fault_inv (exec_call_of_sp_eq_sixteen nnn) (fun hsp => ?_) h
  obtain ⟨t, ht, -⟩ := exec_call_of_sp_lt nnn (s := s) (by omega)
  exact ⟨t, ht⟩

theorem exec_drw_fault (h : exec (.drw x y n) s = .fault f) :
    (n ≠ 0 ∧ 4096 < s.i.toNat + n.toNat) ∧
      f = .memoryOutOfBounds (max 4096 s.i.toNat) (s.pc - 2) (some (encode (.drw x y n))) := by
  refine exec_fault_inv (fun ⟨hn, hout⟩ => exec_drw_of_outside x y hn hout) (fun hin => exec_drw_of_fits x y ?_) h
  rwa [not_and_or, not_not, Nat.not_lt] at hin

theorem exec_ldBVx_fault (h : exec (.ldBVx x) s = .fault f) :
    4096 < s.i.toNat + 3 ∧
      f = .memoryOutOfBounds (max 4096 s.i.toNat) (s.pc - 2) (some (encode (.ldBVx x))) := by
  refine exec_fault_inv (exec_ldBVx_of_outside x) (fun hin => ?_) h
  obtain ⟨m, hw⟩ := writeBlock_of_fits s.mem (bytes := bcdDigits (s.getV x)) (Nat.not_lt.1 hin)
  exact ⟨_, exec_ldBVx_of_writeBlock_ok hw⟩

theorem exec_dump_fault (h : exec (.dump x) s = .fault f) :
    4096 < s.i.toNat + x.val + 1 ∧
      f = .memoryOutOfBounds (max 4096 s.i.toNat) (s.pc - 2) (some (encode (.dump x))) := by
  refine exec_fault_inv exec_dump_of_outside (fun hin => ?_) h
  have hfits : s.i.toNat + (s.regBlock x).length ≤ 4096 := by rw [State.regBlock_length]; omega
  obtain ⟨m, hw⟩ := writeBlock_of_fits s.mem hfits
  exact ⟨_, exec_dump_of_writeBlock_ok hw⟩

theorem exec_load_fault (h : exec (.load x) s = .fault f) :
    4096 < s.i.toNat + x.val + 1 ∧
      f = .memoryOutOfBounds (max 4096 s.i.toNat) (s.pc - 2) (some (encode (.load x))) :=
  exec_fault_inv exec_load_of_outside (fun hin => ⟨_, exec_load_of_fits (Nat.not_lt.1 hin)⟩) h

theorem exec_skp_fault (h : exec (.skp x) s = .fault f) :
    15 < (s.getV x).toNat ∧ f = .keyIndexOutOfRange (s.getV x) (s.pc - 2) (encode (.skp x)) :=
  exec_fault_inv exec_skp_of_gt
    (fun hkey => ⟨_, exec_skp_of_key (k := ⟨(s.getV x).toNat, by omega⟩) rfl⟩) h

theorem exec_sknp_fault (h : exec (.sknp x) s = .fault f) :
    15 < (s.getV x).toNat ∧ f = .keyIndexOutOfRange (s.getV x) (s.pc - 2) (encode (.sknp x)) :=
  exec_fault_inv exec_sknp_of_gt
    (fun hkey => ⟨_, exec_sknp_of_key (k := ⟨(s.getV x).toNat, by omega⟩) rfl⟩) h

theorem exec_addIVx_fault (h : exec (.addIVx x) s = .fault f) :
    0xFFFF < s.i.toNat + (s.getV x).toNat ∧
      f = .indexOverflow (s.i.toNat + (s.getV x).toNat) (s.pc - 2) (encode (.addIVx x)) :=
  exec_fault_inv exec_addIVx_of_gt (fun hfits => ⟨_, exec_addIVx_of_le (Nat.not_lt.1 hfits)⟩) h

/-- The wait for a key completes whether or not one is pressed (R193). -/
theorem exec_ldVxKey_ne_fault : exec (.ldVxKey x) s ≠ .fault f := by
  cases hscan : s.scanKeys with
  | some k => rw [exec_ldVxKey_of_scanKeys_eq_some x hscan]; nofun
  | none => rw [exec_ldVxKey_of_scanKeys_eq_none x hscan]; nofun

end

/-! ## The host's writes, each with its frame (R247-R250) -/

section
variable (s : State)

theorem keepsBut_keyWrite (k : Fin 16) (pressed : Bool) : KeepsBut [.key] s (s.keyWrite k pressed) := by
  simp [KeepsBut, State.memRead, State.getV]

theorem keepsBut_soundTick : KeepsBut [.st] s s.soundTick := by simp [KeepsBut, State.memRead, State.getV]

theorem keepsBut_redrawClear : KeepsBut [.redraw] s s.redrawClear := by simp [KeepsBut, State.memRead, State.getV]

theorem State.keyWrite_getElem_key (k j : Fin 16) (pressed : Bool) :
    (s.keyWrite k pressed).key[j.val] = if j = k then (if pressed then 1 else 0) else s.key[j.val] := by
  simp only [State.keyWrite_key, Vector.getElem_set, Fin.ext_iff, eq_comm, flagByte]

theorem State.soundTick_st_toNat : s.soundTick.st.toNat = s.st.toNat - 1 := by
  rw [State.soundTick_st]
  split
  · simp [*]
  · bv_omega

/-! ## The invariant under the host's operations -/

theorem soundTick_inv_iff : s.soundTick.Inv ↔ s.Inv := by simp [State.Inv]

theorem redrawClear_inv_iff : s.redrawClear.Inv ↔ s.Inv := by simp [State.Inv]

theorem takeFault_inv_iff (record : Fault) : (s.takeFault record).Inv ↔ s.Inv := by simp [State.Inv]

end

theorem keyWrite_inv {s : State} (hs : s.Inv) (k : Fin 16) (pressed : Bool) : (s.keyWrite k pressed).Inv := by
  obtain ⟨hmem, hpc, hstack, hkey⟩ := hs
  refine ⟨hmem, hpc, hstack, fun j => ?_⟩
  rw [State.keyWrite_key, Vector.getElem_set]
  split
  · exact flagByte_eq_zero_or_one pressed
  · exact hkey j

theorem length_le_of_loadFailure_eq_none {image : List Byte} (h : loadFailure image = none) :
    image.length ≤ Config.maxImage := by
  by_contra hlong
  unfold loadFailure at h
  split at h
  · cases h
  · rw [if_pos (Nat.not_le.1 hlong)] at h
    cases h

/-- A Load that has a move fails, and then changes only `PHASE`, or copies an image that fits (R261, R262). -/
theorem State.load_next {image : List Byte} {s t : State} (h : s.load image = .next t) :
    (∃ reason, t = { s with phase := .loadFailed reason }) ∨
    (image.length ≤ Config.maxImage ∧
      t = { s with mem := copyImage s.mem Config.progBase image, phase := .loaded }) := by
  unfold State.load at h
  split at h
  · split at h
    · cases h; exact .inl ⟨_, rfl⟩
    · cases h; exact .inr ⟨length_le_of_loadFailure_eq_none ‹_›, rfl⟩
  · cases h

theorem load_inv {image : List Byte} {s t : State} (hs : s.Inv) (h : s.load image = .next t) : t.Inv := by
  obtain ⟨reason, rfl⟩ | ⟨hlen, rfl⟩ := State.load_next h
  · exact hs
  · obtain ⟨hmem, hrest⟩ := hs
    have hfits : Config.progBase + image.length ≤ Config.memSize := by
      simp only [Config.maxImage, Config.progBase, Config.memSize] at hlen ⊢
      omega
    exact ⟨copyImage_wf image s.mem Config.progBase hfits hmem, hrest⟩

/-! ## The moves of a session (R247, R265) -/

section
variable {r r' : Session}

theorem Session.load_next {image : List Byte} (h : r.load image = .next r') :
    ∃ t, r.machine.load image = .next t ∧ r' = r.withMachine t := by
  unfold Session.load at h
  split at h
  · cases h; exact ⟨_, ‹_›, rfl⟩
  · cases h
  · cases h

/-- A Step that has a move is a completed step or one that takes a fault (R106, R236). -/
theorem Session.step_next (h : r.step = .next r') :
    (∃ t, Machine.step r.machine = .next t ∧ r'.machine = t) ∨
    (∃ record, Machine.step r.machine = .fault record ∧ r'.machine = r.machine.takeFault record) := by
  unfold Session.step at h
  split at h
  · cases h; exact .inl ⟨_, ‹_›, rfl⟩
  · cases h; exact .inr ⟨_, ‹_›, rfl⟩
  · cases h

theorem Session.renderRead_next (h : r.actLive .renderRead = .next r') : r'.machine = r.machine := by
  simp only [Session.actLive] at h
  split at h
  · cases h; rfl
  · cases h

theorem Session.redrawClear_next (h : r.actLive .redrawClear = .next r') : r'.machine = r.machine.redrawClear := by
  simp only [Session.actLive] at h
  split at h
  · cases h; rfl
  · cases h

theorem Session.act_keyWrite (hlive : r.ended = false) (k : Fin 16) (pressed : Bool) :
    r.act (.keyWrite k pressed) = .next (r.withMachine (r.machine.keyWrite k pressed)) :=
  Session.act_of_live hlive _

theorem Session.act_soundTick (hlive : r.ended = false) :
    r.act .soundTick = .next (r.withMachine r.machine.soundTick) :=
  Session.act_of_live hlive _

theorem Session.act_renderRead (hlive : r.ended = false) (hredraw : r.machine.redraw = true) :
    r.act .renderRead = .next { r with frameRead := true } :=
  (Session.act_of_live hlive _).trans (if_pos hredraw)

theorem Session.act_redrawClear (hlive : r.ended = false) (hread : r.frameRead = true) :
    r.act .redrawClear = .next { r with machine := r.machine.redrawClear, frameRead := false } :=
  (Session.act_of_live hlive _).trans (if_pos hread)

theorem Session.act_step_of_next (hlive : r.ended = false) {t : State} (hstep : Machine.step r.machine = .next t) :
    r.act .step = .next { r with machine := t, frameRead := r.frameRead && t.fb == r.machine.fb } := by
  rw [Session.act_of_live hlive, Session.actLive, Session.step, hstep]

theorem Session.act_step_of_fault (hlive : r.ended = false) {record : Fault}
    (hstep : Machine.step r.machine = .fault record) :
    r.act .step = .next (r.withMachine (r.machine.takeFault record)) := by
  rw [Session.act_of_live hlive, Session.actLive, Session.step, hstep]

theorem Session.ended_eq_false_iff :
    r.ended = false ↔ r.terminated = false ∧ r.machine.status = .running ∧ r.machine.phase.ended = false := by
  simp [Session.ended, and_assoc]

theorem Session.ended_of_faulted {record : Fault} (h : r.machine.status = .faulted record) : r.ended = true := by
  simp [Session.ended, h]

/-! ## One iteration of the driver (R248) -/

theorem Session.run_cons_of_next {a : HostAction} (h : r.act a = .next r') (rest : List HostAction) :
    r.run (a :: rest) = r'.run rest := by
  rw [Session.run, h]

end

/-- Key writes in a live run go through, one after the other, before whatever comes next. -/
theorem Session.run_keyWrites (keys : List (Fin 16 × Bool)) (rest : List HostAction) {r : Session}
    (hlive : r.ended = false) :
    r.run (keys.map (fun k => .keyWrite k.1 k.2) ++ rest) =
      (r.withMachine (keys.foldl (fun s k => s.keyWrite k.1 k.2) r.machine)).run rest := by
  induction keys generalizing r with
  | nil => rfl
  | cons k keys ih => exact (Session.run_cons_of_next (Session.act_keyWrite hlive k.1 k.2) _).trans (ih hlive)

/-- Key writes change neither `STATUS` nor `PHASE`, so they do not end a run. -/
theorem Session.ended_keyWrites (keys : List (Fin 16 × Bool)) (r : Session) :
    (r.withMachine (keys.foldl (fun s k => s.keyWrite k.1 k.2) r.machine)).ended = r.ended := by
  induction keys generalizing r with
  | nil => rfl
  | cons k keys ih => exact ih (r.withMachine (r.machine.keyWrite k.1 k.2))

section
variable {r : Session}

theorem Session.run_render (hlive : r.ended = false) (hredraw : r.machine.redraw = true) (rest : List HostAction) :
    r.run (.renderRead :: .redrawClear :: rest) =
      Session.run { r with machine := r.machine.redrawClear, frameRead := false } rest :=
  (Session.run_cons_of_next (Session.act_renderRead hlive hredraw) _).trans
    (Session.run_cons_of_next (Session.act_redrawClear (r := { r with frameRead := true }) hlive rfl) rest)

theorem Session.run_soundTick (hlive : r.ended = false) :
    r.run [.soundTick] = .next (r.withMachine r.machine.soundTick) :=
  Session.run_cons_of_next (Session.act_soundTick hlive) []

/-- After a step of a live run the host renders where `REDRAW` asks for it, and then counts `ST` down. -/
theorem Session.run_afterStep (hlive : r.ended = false) :
    ∃ r', r.run r.afterStep = .next r' ∧ r'.machine.st.toNat = r.machine.st.toNat - 1 ∧ r'.machine.redraw = false ∧
      KeepsBut [.st, .redraw] r.machine r'.machine := by
  have htick (s : State) : KeepsBut [.st, .redraw] s s.soundTick := (keepsBut_soundTick s).mono (by decide)
  rw [Session.afterStep, hlive, if_neg Bool.false_ne_true]
  cases hredraw : r.machine.redraw with
  | true =>
    refine ⟨_, (Session.run_render hlive hredraw _).trans (Session.run_soundTick hlive),
      State.soundTick_st_toNat _, State.soundTick_redraw _, ?_⟩
    exact ((keepsBut_redrawClear r.machine).mono (by decide)).trans (htick r.machine.redrawClear)
  | false =>
    exact ⟨_, Session.run_soundTick hlive, State.soundTick_st_toNat _, (State.soundTick_redraw _).trans hredraw,
      htick r.machine⟩

theorem Session.driverIteration_of_run {r' : Session} {keys : List (Fin 16 × Bool)}
    (h : r.run (keys.map (fun k => .keyWrite k.1 k.2) ++ [.step]) = .next r') :
    r.driverIteration keys = r'.run r'.afterStep := by
  rw [Session.driverIteration, h]

end

end Sys2Proof.Machine

namespace Sys2Proof.Proofs

open Sys2Proof.Machine

/-- Settles O9: a word that decodes to no instruction is named as it is, and the step faults with it. -/
theorem unknownWordFaults : Obligations.UnknownWordFaults := by
  unfold Obligations.UnknownWordFaults
  intro s hi lo hs hhi hlo hnone
  cases hdecode : decode (wordOfBytes hi lo) with
  | insn i => exact absurd hdecode (hnone i)
  | unknown w =>
    obtain rfl : w = wordOfBytes hi lo := eq_of_decode_eq_unknown hdecode
    exact step_of_decode_unknown hs (fetch_of_memRead hhi hlo) hdecode

/-- Settles O11: nine instructions can fault, each under one condition and with one record. -/
theorem faultsComeOnlyFromTheirCauses : Obligations.FaultsComeOnlyFromTheirCauses := by
  unfold Obligations.FaultsComeOnlyFromTheirCauses
  intro i s f h
  cases i
  case ret =>
    obtain ⟨hsp, rfl⟩ := exec_ret_fault h
    exact ⟨rfl, hsp, rfl, rfl⟩
  case call nnn =>
    obtain ⟨hsp, rfl⟩ := exec_call_fault h
    exact ⟨⟨nnn, rfl⟩, hsp, rfl, rfl⟩
  case drw x y n =>
    obtain ⟨⟨hn, hout⟩, rfl⟩ := exec_drw_fault h
    exact ⟨.inl ⟨x, y, n, rfl, hn, hout⟩, (firstBad_eq_max _).symm, rfl, rfl⟩
  case ldBVx x =>
    obtain ⟨hout, rfl⟩ := exec_ldBVx_fault h
    exact ⟨.inr (.inl ⟨x, rfl, hout⟩), (firstBad_eq_max _).symm, rfl, rfl⟩
  case dump x =>
    obtain ⟨hout, rfl⟩ := exec_dump_fault h
    exact ⟨.inr (.inr (.inl ⟨x, rfl, hout⟩)), (firstBad_eq_max _).symm, rfl, rfl⟩
  case load x =>
    obtain ⟨hout, rfl⟩ := exec_load_fault h
    exact ⟨.inr (.inr (.inr ⟨x, rfl, hout⟩)), (firstBad_eq_max _).symm, rfl, rfl⟩
  case skp x =>
    obtain ⟨hkey, rfl⟩ := exec_skp_fault h
    exact ⟨⟨x, .inl rfl, rfl⟩, hkey, rfl, rfl⟩
  case sknp x =>
    obtain ⟨hkey, rfl⟩ := exec_sknp_fault h
    exact ⟨⟨x, .inr rfl, rfl⟩, hkey, rfl, rfl⟩
  case addIVx x =>
    obtain ⟨hsum, rfl⟩ := exec_addIVx_fault h
    exact ⟨⟨x, rfl, rfl⟩, hsum, rfl, rfl⟩
  case ldVxKey => exact absurd h exec_ldVxKey_ne_fault
  all_goals cases h

/-- Settles O18: after its end a run only resets; in a live one each action is one operation on the machine, and each
operation keeps the invariant. -/
theorem hostActionsKeepInvariant : Obligations.HostActionsKeepInvariant := by
  unfold Obligations.HostActionsKeepInvariant
  intro r r' a hinv hact
  cases hended : r.ended with
  | true =>
    rw [Session.act_of_ended hended] at hact
    split at hact
    · cases hact; exact resetMeetsInvariant
    · cases hact
  | false =>
    rw [Session.act_of_live hended] at hact
    cases a with
    | reset => cases hact
    | load image =>
      obtain ⟨t, hload, rfl⟩ := Session.load_next hact
      exact load_inv hinv hload
    | step =>
      obtain ⟨t, hstep, rfl⟩ | ⟨record, -, hmachine⟩ := Session.step_next hact
      · exact stepKeepsInvariant _ _ hinv hstep
      · rw [hmachine]; exact (takeFault_inv_iff _ record).2 hinv
    | keyWrite k pressed => cases hact; exact keyWrite_inv hinv k pressed
    | renderRead => rw [Session.renderRead_next hact]; exact hinv
    | redrawClear => rw [Session.redrawClear_next hact]; exact (redrawClear_inv_iff _).2 hinv
    | soundTick => cases hact; exact (soundTick_inv_iff _).2 hinv
    | soundRead => cases hact; exact hinv
    | terminate => cases hact; exact hinv

/-- Settles O54: each write is one operation on the machine, with its frame; the renderer's read is what admits the
clear. -/
theorem hostWritesOnlyItsFields : Obligations.HostWritesOnlyItsFields := by
  unfold Obligations.HostWritesOnlyItsFields
  refine fun r hlive => ⟨fun k pressed => ?_, ?_, fun hredraw => ?_⟩
  · exact ⟨_, Session.act_keyWrite hlive k pressed, fun j => State.keyWrite_getElem_key _ k j pressed,
      keepsBut_keyWrite _ k pressed⟩
  · exact ⟨_, Session.act_soundTick hlive, State.soundTick_st_toNat _, keepsBut_soundTick _⟩
  · exact ⟨_, _, Session.act_renderRead hlive hredraw, rfl, Session.act_redrawClear hlive rfl, rfl,
      keepsBut_redrawClear _⟩

/-- Settles O55: the step takes the fault, and a machine with a fault ends its run. -/
theorem faultIsFinal : Obligations.FaultIsFinal := by
  unfold Obligations.FaultIsFinal
  intro r record hlive hstep
  have hended : (r.withMachine (r.machine.takeFault record)).ended = true := Session.ended_of_faulted rfl
  exact ⟨_, Session.act_step_of_fault hlive hstep, rfl, rfl,
    fun a ha => (Session.act_of_ended hended a).trans (if_neg ha),
    _, (Session.act_of_ended hended .reset).trans (if_pos rfl), rfl, rfl⟩

/-- Settles O57: the keys are written, the step completes in a run that stays live, and the host's moves after it
follow. -/
theorem driverIterationTicksTheSoundTimer : Obligations.DriverIterationTicksTheSoundTimer := by
  unfold Obligations.DriverIterationTicksTheSoundTimer
  intro r keys t hlive hstep
  have hwritten := (Session.ended_keyWrites keys r).trans hlive
  have hact := Session.act_step_of_next hwritten hstep
  have hrun := (Session.run_keyWrites keys [.step] hlive).trans (Session.run_cons_of_next hact [])
  obtain ⟨-, -, hstatus, hphase, -⟩ := stepLeavesHostSideAlone _ t hstep
  obtain ⟨hterminated, -, -⟩ := Session.ended_eq_false_iff.1 hlive
  rw [Session.driverIteration_of_run hrun]
  exact Session.run_afterStep (Session.ended_eq_false_iff.2 ⟨hterminated, hstatus, congrArg Phase.ended hphase⟩)

end Sys2Proof.Proofs
end

section
/-! SUPPORT. What Load does in each of its outcomes, and which sessions have ended (70_reset_and_hazards.md R260-R265); the
statements of 70_reset_and_hazards.md settled from them. -/

namespace Sys2Proof.Machine

/-! ## Load (R261-R263) -/

theorem loadFailure_of_length_eq_zero {image : List Byte} (h : image.length = 0) :
    loadFailure image = some .emptyImage := if_pos h

theorem loadFailure_of_maxImage_lt {image : List Byte} (h : Config.maxImage < image.length) :
    loadFailure image = some .imageTooLarge :=
  (if_neg (Nat.ne_zero_of_lt h)).trans (if_pos h)

theorem loadFailure_of_fits {image : List Byte} (hpos : 1 ≤ image.length) (hle : image.length ≤ Config.maxImage) :
    loadFailure image = none :=
  (if_neg (Nat.ne_zero_of_lt hpos)).trans (if_neg (Nat.not_lt.2 hle))

section
variable {image : List Byte} {s : State}

theorem State.load_of_failure (hphase : s.phase = .reset) {reason : LoadFailure}
    (h : loadFailure image = some reason) : s.load image = .next { s with phase := .loadFailed reason } := by
  rw [State.load, if_pos hphase, h]

theorem State.load_of_success (hphase : s.phase = .reset) (h : loadFailure image = none) :
    s.load image = .next { s with mem := copyImage s.mem Config.progBase image, phase := .loaded } := by
  rw [State.load, if_pos hphase, h]

theorem State.load_of_phase_ne_reset (hphase : s.phase ≠ .reset) : s.load image = .refused .loadNotAdmitted :=
  if_neg hphase

end

theorem keepsBut_setPhase (s : State) (phase : Phase) : KeepsBut [.launch] s { s with phase := phase } := by
  simp [KeepsBut, State.memRead, State.getV]

theorem keepsBut_setMem_setPhase (s : State) (m : Memory) (phase : Phase) :
    KeepsBut [.mem, .launch] s { s with mem := m, phase := phase } :=
  ((keepsBut_setMem s m).mono (by decide)).trans
    ((keepsBut_setPhase (s.setMem m) phase).mono (q := [.mem, .launch]) (by decide))

/-- Byte `k` of a copy that stays inside memory is byte `k` of the image. -/
theorem memRead_copyImage_of_inside {bytes : List Byte} {a k : Nat} (m : Memory) (hk : k < bytes.length)
    (hfits : a + bytes.length ≤ Config.memSize) : memRead (copyImage m a bytes) (a + k) = bytes[k]? := by
  rw [memRead, if_pos (by omega), copyImage_read, if_pos (by omega), Nat.add_sub_cancel_left,
    List.getD_eq_getElem _ _ hk, List.getElem?_eq_getElem hk]

/-- A copy leaves every byte before it and after it alone. -/
theorem memRead_copyImage_of_outside {bytes : List Byte} {a x : Nat} (m : Memory)
    (hx : x < a ∨ a + bytes.length ≤ x) : memRead (copyImage m a bytes) x = memRead m x := by
  have hout : ¬ (a ≤ x ∧ x < a + bytes.length) := by omega
  rw [memRead, memRead, copyImage_read, if_neg hout]

/-! ## The three ends of a run (R265) -/

section
variable {r : Session}

theorem Session.ended_of_terminated (h : r.terminated = true) : r.ended = true := by simp [Session.ended, h]

theorem Session.ended_of_loadFailed {reason : LoadFailure} (h : r.machine.phase = .loadFailed reason) :
    r.ended = true := by
  simp [Session.ended, Phase.ended, h]

theorem Session.act_reset_of_live (h : r.ended = false) : r.act .reset = .refused .runLive :=
  Session.act_of_live h .reset

theorem Session.act_reset_of_ended (h : r.ended = true) : r.act .reset = .next r.reset :=
  (Session.act_of_ended h .reset).trans (if_pos rfl)

theorem Session.act_ne_reset_of_ended (h : r.ended = true) {a : HostAction} (ha : a ≠ .reset) :
    r.act a = .refused .runEnded :=
  (Session.act_of_ended h a).trans (if_neg ha)

/-- The run that Reset starts is live (R260). -/
theorem Session.ended_reset (r : Session) : r.reset.ended = false :=
  Session.ended_eq_false_iff.2 ⟨rfl, rfl, rfl⟩

end

end Sys2Proof.Machine

namespace Sys2Proof.Proofs

open Sys2Proof.Machine

/-- Settles O52: the image fits between 0x200 and the end of memory, so Load is the copy and the change of `PHASE`. -/
theorem loadCopiesTheImage : Obligations.LoadCopiesTheImage := by
  unfold Obligations.LoadCopiesTheImage
  intro image s hphase hpos hle
  have hfits : Config.progBase + image.length ≤ Config.memSize := Nat.add_le_add_left hle Config.progBase
  exact ⟨_, State.load_of_success hphase (loadFailure_of_fits hpos hle), rfl, rfl,
    fun k hk => memRead_copyImage_of_inside s.mem hk hfits, fun a ha => memRead_copyImage_of_outside s.mem ha,
    keepsBut_setMem_setPhase s _ _⟩

/-- Settles O53: both failures only set `PHASE`, and Load asks for `PHASE = Reset`. -/
theorem loadFailsOrIsRefused : Obligations.LoadFailsOrIsRefused := by
  unfold Obligations.LoadFailsOrIsRefused
  refine fun image s => ⟨fun hphase hempty => ?_, fun hphase hlarge => ?_, State.load_of_phase_ne_reset⟩
  · exact ⟨_, State.load_of_failure hphase (loadFailure_of_length_eq_zero hempty), rfl, rfl, keepsBut_setPhase s _⟩
  · exact ⟨_, State.load_of_failure hphase (loadFailure_of_maxImage_lt hlarge), rfl, rfl, keepsBut_setPhase s _⟩

/-- Settles O56: each of the three ends makes the session ended, where Reset alone has a move; the run it starts is
live. -/
theorem resetHasAMoveOnlyAfterTheEnd : Obligations.ResetHasAMoveOnlyAfterTheEnd := by
  unfold Obligations.ResetHasAMoveOnlyAfterTheEnd
  refine fun r => ⟨Session.act_reset_of_live, fun hend => ?_⟩
  have hended : r.ended = true := by
    obtain hterminated | ⟨record, hfaulted⟩ | ⟨reason, hfailed⟩ := hend
    · exact Session.ended_of_terminated hterminated
    · exact Session.ended_of_faulted hfaulted
    · exact Session.ended_of_loadFailed hfailed
  exact ⟨r.reset, Session.act_reset_of_ended hended, rfl, rfl, Session.act_reset_of_live r.ended_reset,
    fun a ha => Session.act_ne_reset_of_ended hended ha⟩

end Sys2Proof.Proofs
end
